-- ==== Sys2Proof/Word.lean ====
section
/-! DEFINITION. The word types of the CHIP-8 core (00_scope.md R6, R7, R9, R10): every value is unsigned. -/

namespace Sys2Proof

/-- A byte of memory, a general register, a timer, an immediate operand `kk` (R6, R13). -/
abbrev Byte := BitVec 8

/-- A 16-bit value: an opcode word, `I`, `pc`, a stack entry, the 16 key levels (R6, R7, R13). -/
abbrev Word := BitVec 16

/-- The 12-bit address operand `nnn` (30_encoding.md R46). -/
abbrev Addr12 := BitVec 12

/-- The index of a general register `V[0]`..`V[15]`, or of a key (10_state.md R14, R24). -/
abbrev Reg := Fin 16

/-- `VF`, the register that is also the flag (10_state.md R15). -/
abbrev VF : Reg := 15

end Sys2Proof
end

