-- ==== Sys2Proof/Syntax.lean ====
section
/-! DEFINITION. The instructions: one constructor for each of the 34 rows of spec/opcode_table.json, in the table's order, with
the operands of 30_encoding.md R46 and R48. The unrecognized word (R51) is no row of the table and no constructor. -/

namespace Sys2Proof

/-- An instruction. `x` and `y` are register indices, `kk` an immediate byte, `nnn` a 12-bit address, `n` a row count
(30_encoding.md R46). -/
inductive Instr where
  /-- `00E0` (R94) -/
  | clearScreen
  /-- `00EE` (R62) -/
  | ret
  /-- `1nnn` (R63) -/
  | jump (nnn : Addr12)
  /-- `2nnn` (R64) -/
  | call (nnn : Addr12)
  /-- `3xkk` (R65) -/
  | skipEqImm (x : Reg) (kk : Byte)
  /-- `4xkk` (R66) -/
  | skipNeqImm (x : Reg) (kk : Byte)
  /-- `5xy0` (R67) -/
  | skipEqReg (x y : Reg)
  /-- `6xkk` (R72) -/
  | loadImm (x : Reg) (kk : Byte)
  /-- `7xkk` (R73) -/
  | addImm (x : Reg) (kk : Byte)
  /-- `8xy0` (R74) -/
  | loadReg (x y : Reg)
  /-- `8xy1` (R75) -/
  | orReg (x y : Reg)
  /-- `8xy2` (R76) -/
  | andReg (x y : Reg)
  /-- `8xy3` (R77) -/
  | xorReg (x y : Reg)
  /-- `8xy4` (R78) -/
  | addReg (x y : Reg)
  /-- `8xy5` (R79) -/
  | subReg (x y : Reg)
  /-- `8xy6` (R80): `y` is part of the word and is not read -/
  | shiftRight (x y : Reg)
  /-- `8xy7` (R81) -/
  | subnReg (x y : Reg)
  /-- `8xyE` (R82): `y` is part of the word and is not read -/
  | shiftLeft (x y : Reg)
  /-- `9xy0` (R68) -/
  | skipNeqReg (x y : Reg)
  /-- `Annn` (R85) -/
  | loadAddr (nnn : Addr12)
  /-- `Bnnn` (R69) -/
  | jumpOffset (nnn : Addr12)
  /-- `Cxkk` (R83) -/
  | random (x : Reg) (kk : Byte)
  /-- `Dxyn` (R95) -/
  | draw (x y : Reg) (n : Nat)
  /-- `Ex9E` (R99) -/
  | skipKeyPressed (x : Reg)
  /-- `ExA1` (R100) -/
  | skipKeyNotPressed (x : Reg)
  /-- `Fx07` (R101) -/
  | loadDelay (x : Reg)
  /-- `Fx0A` (R102) -/
  | waitKey (x : Reg)
  /-- `Fx15` (R103) -/
  | setDelay (x : Reg)
  /-- `Fx18` (R104) -/
  | setSound (x : Reg)
  /-- `Fx1E` (R86) -/
  | addAddr (x : Reg)
  /-- `Fx29` (R87) -/
  | fontAddr (x : Reg)
  /-- `Fx33` (R88) -/
  | storeBcd (x : Reg)
  /-- `Fx55` (R89) -/
  | storeRegs (x : Reg)
  /-- `Fx65` (R90) -/
  | loadRegs (x : Reg)
  deriving DecidableEq, Repr

end Sys2Proof
end

