-- ==== Sys2Proof/WellFormed.lean ====
section
/-! DEFINITION. Which instruction terms an opcode word can encode. Register indices, immediates and addresses have exactly the
width of their field (30_encoding.md R46); the row count of `draw` is a number, and its field is 4 bits wide. -/

namespace Sys2Proof

/-- The operands fit the fields of the opcode word (R46, R47: "`n` is a row count 0..15"). -/
def Instr.wellFormed : Instr → Bool
  | .draw _ _ n => decide (n < 16)
  | .clearScreen | .ret | .jump _ | .call _ | .skipEqImm _ _ | .skipNeqImm _ _ | .skipEqReg _ _ | .loadImm _ _
  | .addImm _ _ | .loadReg _ _ | .orReg _ _ | .andReg _ _ | .xorReg _ _ | .addReg _ _ | .subReg _ _ | .shiftRight _ _
  | .subnReg _ _ | .shiftLeft _ _ | .skipNeqReg _ _ | .loadAddr _ | .jumpOffset _ | .random _ _ | .skipKeyPressed _
  | .skipKeyNotPressed _ | .loadDelay _ | .waitKey _ | .setDelay _ | .setSound _ | .addAddr _ | .fontAddr _
  | .storeBcd _ | .storeRegs _ | .loadRegs _ => true

end Sys2Proof
end

