-- ==== Sys2Proof/Decode.lean ====
section
/-! DEFINITION. Decoding (30_encoding.md R46, R50), the encoder that inverts it, and the opcode map of R49 as data. -/

namespace Sys2Proof

/-- What a 16-bit word decodes to: an instruction, or by name the unrecognized word (R50, R51). -/
inductive Decoded where
  | instr (i : Instr)
  | unrecognized (w : Word)
  deriving DecidableEq, Repr

/-- The opcode word of the bytes at `pc` and `pc + 1`: big-endian (20_memory.md R38). -/
def wordOfBytes (hi lo : Byte) : Word := hi ++ lo

/-- The byte of a word that stands at `pc` (R38). -/
def hiByte (w : Word) : Byte := w.extractLsb' 8 8

/-- The byte of a word that stands at `pc + 1` (R38). -/
def loByte (w : Word) : Byte := w.extractLsb' 0 8

/-- `c`, the class: w[15:12] (R46). -/
def fieldC (w : Word) : BitVec 4 := w.extractLsb' 12 4

/-- `x`: w[11:8] (R46). -/
def fieldX (w : Word) : Reg := (w.extractLsb' 8 4).toFin

/-- `y`: w[7:4] (R46). -/
def fieldY (w : Word) : Reg := (w.extractLsb' 4 4).toFin

/-- `n`: w[3:0] (R46). -/
def fieldN (w : Word) : BitVec 4 := w.extractLsb' 0 4

/-- `nnn`: w[11:0] (R46). -/
def fieldNNN (w : Word) : Addr12 := w.extractLsb' 0 12

/-- `kk`: w[7:0] (R46). -/
def fieldKK (w : Word) : Byte := w.extractLsb' 0 8

/-- Class 0x8 is told apart by the low nibble (R50). -/
def decodeClass8 (w : Word) : Decoded :=
  match fieldN w with
  | 0x0#4 => .instr (.loadReg (fieldX w) (fieldY w))
  | 0x1#4 => .instr (.orReg (fieldX w) (fieldY w))
  | 0x2#4 => .instr (.andReg (fieldX w) (fieldY w))
  | 0x3#4 => .instr (.xorReg (fieldX w) (fieldY w))
  | 0x4#4 => .instr (.addReg (fieldX w) (fieldY w))
  | 0x5#4 => .instr (.subReg (fieldX w) (fieldY w))
  | 0x6#4 => .instr (.shiftRight (fieldX w) (fieldY w))
  | 0x7#4 => .instr (.subnReg (fieldX w) (fieldY w))
  | 0xE#4 => .instr (.shiftLeft (fieldX w) (fieldY w))
  | _ => .unrecognized w

/-- Class 0xE is told apart by the low byte (R50). -/
def decodeClassE (w : Word) : Decoded :=
  match fieldKK w with
  | 0x9E#8 => .instr (.skipKeyPressed (fieldX w))
  | 0xA1#8 => .instr (.skipKeyNotPressed (fieldX w))
  | _ => .unrecognized w

/-- Class 0xF is told apart by the low byte (R50). -/
def decodeClassF (w : Word) : Decoded :=
  match fieldKK w with
  | 0x07#8 => .instr (.loadDelay (fieldX w))
  | 0x0A#8 => .instr (.waitKey (fieldX w))
  | 0x15#8 => .instr (.setDelay (fieldX w))
  | 0x18#8 => .instr (.setSound (fieldX w))
  | 0x1E#8 => .instr (.addAddr (fieldX w))
  | 0x29#8 => .instr (.fontAddr (fieldX w))
  | 0x33#8 => .instr (.storeBcd (fieldX w))
  | 0x55#8 => .instr (.storeRegs (fieldX w))
  | 0x65#8 => .instr (.loadRegs (fieldX w))
  | _ => .unrecognized w

/-- Decoding: "a total function from 16-bit words to one of the 34 instructions or `Unrecognized(w)`" (R50). The last case is
class 0xF. -/
def decode (w : Word) : Decoded :=
  match fieldC w with
  | 0x0#4 =>
    if w = 0x00E0#16 then .instr .clearScreen
    else if w = 0x00EE#16 then .instr .ret
    else .unrecognized w
  | 0x1#4 => .instr (.jump (fieldNNN w))
  | 0x2#4 => .instr (.call (fieldNNN w))
  | 0x3#4 => .instr (.skipEqImm (fieldX w) (fieldKK w))
  | 0x4#4 => .instr (.skipNeqImm (fieldX w) (fieldKK w))
  | 0x5#4 => if fieldN w = 0x0#4 then .instr (.skipEqReg (fieldX w) (fieldY w)) else .unrecognized w
  | 0x6#4 => .instr (.loadImm (fieldX w) (fieldKK w))
  | 0x7#4 => .instr (.addImm (fieldX w) (fieldKK w))
  | 0x8#4 => decodeClass8 w
  | 0x9#4 => if fieldN w = 0x0#4 then .instr (.skipNeqReg (fieldX w) (fieldY w)) else .unrecognized w
  | 0xA#4 => .instr (.loadAddr (fieldNNN w))
  | 0xB#4 => .instr (.jumpOffset (fieldNNN w))
  | 0xC#4 => .instr (.random (fieldX w) (fieldKK w))
  | 0xD#4 => .instr (.draw (fieldX w) (fieldY w) (fieldN w).toNat)
  | 0xE#4 => decodeClassE w
  | _ => decodeClassF w

/-! ### The encoder -/

/-- Format NNN: `c nnn` (R48). -/
def encodeNNN (c : BitVec 4) (nnn : Addr12) : Word := c ++ nnn

/-- Format XKK, and format XSS with the sub-opcode byte for `kk`: `c x kk` (R48). -/
def encodeXKK (c : BitVec 4) (x : Reg) (kk : Byte) : Word := (c ++ BitVec.ofFin (w := 4) x : Byte) ++ kk

/-- Formats XYS and XYN: `c x y n` (R48). -/
def encodeXYN (c : BitVec 4) (x y : Reg) (n : BitVec 4) : Word :=
  (c ++ BitVec.ofFin (w := 4) x : Byte) ++ (BitVec.ofFin (w := 4) y ++ n : Byte)

/-- The opcode word of an instruction, from the patterns of R48 and R49. -/
def encode : Instr → Word
  | .clearScreen => 0x00E0#16
  | .ret => 0x00EE#16
  | .jump nnn => encodeNNN 0x1#4 nnn
  | .call nnn => encodeNNN 0x2#4 nnn
  | .skipEqImm x kk => encodeXKK 0x3#4 x kk
  | .skipNeqImm x kk => encodeXKK 0x4#4 x kk
  | .skipEqReg x y => encodeXYN 0x5#4 x y 0x0#4
  | .loadImm x kk => encodeXKK 0x6#4 x kk
  | .addImm x kk => encodeXKK 0x7#4 x kk
  | .loadReg x y => encodeXYN 0x8#4 x y 0x0#4
  | .orReg x y => encodeXYN 0x8#4 x y 0x1#4
  | .andReg x y => encodeXYN 0x8#4 x y 0x2#4
  | .xorReg x y => encodeXYN 0x8#4 x y 0x3#4
  | .addReg x y => encodeXYN 0x8#4 x y 0x4#4
  | .subReg x y => encodeXYN 0x8#4 x y 0x5#4
  | .shiftRight x y => encodeXYN 0x8#4 x y 0x6#4
  | .subnReg x y => encodeXYN 0x8#4 x y 0x7#4
  | .shiftLeft x y => encodeXYN 0x8#4 x y 0xE#4
  | .skipNeqReg x y => encodeXYN 0x9#4 x y 0x0#4
  | .loadAddr nnn => encodeNNN 0xA#4 nnn
  | .jumpOffset nnn => encodeNNN 0xB#4 nnn
  | .random x kk => encodeXKK 0xC#4 x kk
  | .draw x y n => encodeXYN 0xD#4 x y (BitVec.ofNat 4 n)
  | .skipKeyPressed x => encodeXKK 0xE#4 x 0x9E#8
  | .skipKeyNotPressed x => encodeXKK 0xE#4 x 0xA1#8
  | .loadDelay x => encodeXKK 0xF#4 x 0x07#8
  | .waitKey x => encodeXKK 0xF#4 x 0x0A#8
  | .setDelay x => encodeXKK 0xF#4 x 0x15#8
  | .setSound x => encodeXKK 0xF#4 x 0x18#8
  | .addAddr x => encodeXKK 0xF#4 x 0x1E#8
  | .fontAddr x => encodeXKK 0xF#4 x 0x29#8
  | .storeBcd x => encodeXKK 0xF#4 x 0x33#8
  | .storeRegs x => encodeXKK 0xF#4 x 0x55#8
  | .loadRegs x => encodeXKK 0xF#4 x 0x65#8

/-! ### The opcode map of R49 as data -/

/-- One row of the opcode map: its mnemonic, its mask and its match. -/
structure OpcodeRow where
  mnemonic : String
  mask     : Word
  value    : Word
  deriving DecidableEq, Repr

/-- "A word w selects row r when `w AND mask_r = match_r`" (R49). -/
def OpcodeRow.selectedBy (r : OpcodeRow) (w : Word) : Bool := w &&& r.mask == r.value

/-- The row of an instruction in the opcode map (R49). -/
def Instr.row : Instr → OpcodeRow
  | .clearScreen => ⟨"clear-screen", 0xFFFF, 0x00E0⟩
  | .ret => ⟨"return", 0xFFFF, 0x00EE⟩
  | .jump _ => ⟨"jump", 0xF000, 0x1000⟩
  | .call _ => ⟨"call", 0xF000, 0x2000⟩
  | .skipEqImm _ _ => ⟨"skip-eq-imm", 0xF000, 0x3000⟩
  | .skipNeqImm _ _ => ⟨"skip-neq-imm", 0xF000, 0x4000⟩
  | .skipEqReg _ _ => ⟨"skip-eq-reg", 0xF00F, 0x5000⟩
  | .loadImm _ _ => ⟨"load-imm", 0xF000, 0x6000⟩
  | .addImm _ _ => ⟨"add-imm", 0xF000, 0x7000⟩
  | .loadReg _ _ => ⟨"load-reg", 0xF00F, 0x8000⟩
  | .orReg _ _ => ⟨"or", 0xF00F, 0x8001⟩
  | .andReg _ _ => ⟨"and", 0xF00F, 0x8002⟩
  | .xorReg _ _ => ⟨"xor", 0xF00F, 0x8003⟩
  | .addReg _ _ => ⟨"add-reg", 0xF00F, 0x8004⟩
  | .subReg _ _ => ⟨"sub-reg", 0xF00F, 0x8005⟩
  | .shiftRight _ _ => ⟨"shift-right", 0xF00F, 0x8006⟩
  | .subnReg _ _ => ⟨"subn-reg", 0xF00F, 0x8007⟩
  | .shiftLeft _ _ => ⟨"shift-left", 0xF00F, 0x800E⟩
  | .skipNeqReg _ _ => ⟨"skip-neq-reg", 0xF00F, 0x9000⟩
  | .loadAddr _ => ⟨"load-addr", 0xF000, 0xA000⟩
  | .jumpOffset _ => ⟨"jump-offset", 0xF000, 0xB000⟩
  | .random _ _ => ⟨"random", 0xF000, 0xC000⟩
  | .draw _ _ _ => ⟨"draw", 0xF000, 0xD000⟩
  | .skipKeyPressed _ => ⟨"skip-key-pressed", 0xF0FF, 0xE09E⟩
  | .skipKeyNotPressed _ => ⟨"skip-key-not-pressed", 0xF0FF, 0xE0A1⟩
  | .loadDelay _ => ⟨"load-delay", 0xF0FF, 0xF007⟩
  | .waitKey _ => ⟨"wait-key", 0xF0FF, 0xF00A⟩
  | .setDelay _ => ⟨"set-delay", 0xF0FF, 0xF015⟩
  | .setSound _ => ⟨"set-sound", 0xF0FF, 0xF018⟩
  | .addAddr _ => ⟨"add-addr", 0xF0FF, 0xF01E⟩
  | .fontAddr _ => ⟨"font-addr", 0xF0FF, 0xF029⟩
  | .storeBcd _ => ⟨"store-bcd", 0xF0FF, 0xF033⟩
  | .storeRegs _ => ⟨"store-regs", 0xF0FF, 0xF055⟩
  | .loadRegs _ => ⟨"load-regs", 0xF0FF, 0xF065⟩

/-- The 34 rows of the opcode map in the order of R49 (each read off the instruction it belongs to). -/
def opcodeTable : List OpcodeRow :=
  ([.clearScreen, .ret, .jump 0, .call 0, .skipEqImm 0 0, .skipNeqImm 0 0, .skipEqReg 0 0, .loadImm 0 0, .addImm 0 0,
    .loadReg 0 0, .orReg 0 0, .andReg 0 0] : List Instr).map Instr.row ++
  ([.xorReg 0 0, .addReg 0 0, .subReg 0 0, .shiftRight 0 0, .subnReg 0 0, .shiftLeft 0 0, .skipNeqReg 0 0, .loadAddr 0,
    .jumpOffset 0, .random 0 0, .draw 0 0 0] : List Instr).map Instr.row ++
  ([.skipKeyPressed 0, .skipKeyNotPressed 0, .loadDelay 0, .waitKey 0, .setDelay 0, .setSound 0, .addAddr 0, .fontAddr 0,
    .storeBcd 0, .storeRegs 0, .loadRegs 0] : List Instr).map Instr.row

/-! ### The decoder as the host asks for it -/

/-- The instruction read from a word whose bits are `w`, the bits from `nbits` up being 0. One opcode word is the whole
instruction (R54), its bit 0 the least significant bit (R46). -/
def decodeTableWord (nbits w : Nat) : Option Instr :=
  let word : Word := BitVec.ofNat 16 (w % 2 ^ nbits)
  match decode (wordOfBytes (hiByte word) (loByte word)) with
  | .instr i => some i
  | .unrecognized _ => none

end Sys2Proof
end

