-- ==== Sys2Proof/Config.lean ====
section
/-! DEFINITION. What an implementation fixes: the sizes of 00_scope.md R6, the named parameters of R8, and the free value of
the random input (30_encoding.md R59). The default values of the parameters stand in Machine/Params.lean. -/

namespace Sys2Proof

/-- TIMER_MODE (R8): timers tick on events of their own, or once per executed cycle. -/
inductive TimerMode where
  | decoupled
  | coupled
  deriving DecidableEq, Repr

/-- KEY_INDEX_POLICY (R8, 44_timer_input.md R96): what a skip-key instruction does with a register value of 16 or more. -/
inductive KeyIndexPolicy where
  | fault
  | maskLowNibble
  | notPressed
  deriving DecidableEq, Repr

/-- The three named parameters that the model takes (R8). They are held in the state, so that a statement over every state is
a statement over every value of them; no step changes them. -/
structure Params where
  timerMode      : TimerMode
  keyIndexPolicy : KeyIndexPolicy
  font           : Vector Byte 80
  deriving DecidableEq, Repr

/-- MEM_SIZE (R6). -/
abbrev Config.memSize : Nat := 4096

/-- PROGRAM_BASE (R6): where `rom_load` puts the image, and the reset value of `pc`. -/
abbrev Config.programBase : Nat := 0x200

/-- ROM_MAX (R6). -/
abbrev Config.romMax : Nat := 3584

/-- STACK_DEPTH (R6). -/
abbrev Config.stackDepth : Nat := 16

/-- FONT_SIZE (R6). -/
abbrev Config.fontSize : Nat := 80

/-- The free value of `RND` (30_encoding.md R59): the byte of the n-th draw that the host's schedule does not give. It has no
body, so nothing can be proved of its values (assumption log 2). -/
opaque Config.freeRnd : Nat → Byte

end Sys2Proof
end

