-- ==== Sys2Proof/Machine/Params.lean ====
section
/-! DEFINITION. The default values of the named parameters (00_scope.md R8), and what a byte of memory holds after
construction (10_state.md R29, 20_memory.md R34 to R36). -/

namespace Sys2Proof.Machine

/-- The default FONT: the glyph table of 20_memory.md R36, glyphs 0 to 7. The bytes are supplied "[from general knowledge, not in
source]" (PRESUMED, assumption log 7). -/
def fontLow : Vector Byte 40 :=
  #v[0xF0, 0x90, 0x90, 0x90, 0xF0, 0x20, 0x60, 0x20, 0x20, 0x70, 0xF0, 0x10, 0xF0, 0x80, 0xF0, 0xF0, 0x10, 0xF0, 0x10, 0xF0,
     0x90, 0x90, 0xF0, 0x10, 0x10, 0xF0, 0x80, 0xF0, 0x10, 0xF0, 0xF0, 0x80, 0xF0, 0x90, 0xF0, 0xF0, 0x10, 0x20, 0x40, 0x40]

/-- The default FONT, glyphs 8 to F (R36; PRESUMED, assumption log 7). -/
def fontHigh : Vector Byte 40 :=
  #v[0xF0, 0x90, 0xF0, 0x90, 0xF0, 0xF0, 0x90, 0xF0, 0x10, 0xF0, 0xF0, 0x90, 0xF0, 0x90, 0x90, 0xE0, 0x90, 0xE0, 0x90, 0xE0,
     0xF0, 0x80, 0x80, 0x80, 0xF0, 0xE0, 0x90, 0x90, 0x90, 0xE0, 0xF0, 0x80, 0xF0, 0x80, 0xF0, 0xF0, 0x80, 0xF0, 0x80, 0x80]

/-- The default FONT (R36): 16 glyphs of 5 bytes, glyph g at 5*g (R35). -/
def defaultFont : Vector Byte 80 := fontLow ++ fontHigh

/-- The defaults of R8 (DESIGN CHOICE, assumption log 1: the parameter values of the state after reset). -/
def defaultParams : Params where
  timerMode := .decoupled
  keyIndexPolicy := .fault
  font := defaultFont

/-- What an address that the memory does not list reads as: its content after construction, FONT at 0x000-0x04F and 0x00
elsewhere (R29, R34, R35). -/
def unlistedByte (font : Vector Byte 80) (a : Nat) : Byte :=
  if h : a < Config.fontSize then font[a] else 0x00#8

end Sys2Proof.Machine
end

