-- ==== Sys2Proof/Machine/State.lean ====
section
/-! DEFINITION. The state of the block (10_state.md R13), the model's own fields beside it, the ways a step can stop, and the
state after reset (R29). -/

namespace Sys2Proof.Machine

/-- Why a cycle ends with a fatal error (60_exceptions.md R105): it has no effect and the block is stuck (R107, R108). Stopping
here is safe: the spec gives the block no way on but the host's reset (R111). -/
inductive Fault where
  /-- code 2, raised by `call` with 16 stacked addresses: `pc` of the call (R64). Safe. -/
  | stackOverflow (pc : Word)
  /-- code 3, raised by `return` with an empty stack: `pc` of the return (R62). Safe. -/
  | stackUnderflow (pc : Word)
  /-- code 4, raised by the fetch, `draw`, `store-bcd`, `store-regs`, `load-regs`: the lowest address of the access that is
  4096 or more (20_memory.md R33). Safe. -/
  | addressOutOfRange (a : Nat)
  /-- code 5, raised by the skip-key instructions under KEY_INDEX_POLICY = Fault: the value `V[x]` (44_timer_input.md R96). Safe. -/
  | keyIndexOutOfRange (v : Byte)
  deriving DecidableEq, Repr

/-- Why a step is refused. No instruction is: these are operations of the host that the spec refuses. -/
inductive Refusal where
  /-- Raised by exec's arm of an instruction that has no meaning yet; no arm does. Safe. -/
  | notModelled (mnemonic : String)
  /-- Raised by `rom_load` of an image of more than 3584 bytes: its length (70_reset_and_hazards.md R127). Safe. -/
  | romTooLarge (length : Nat)
  /-- Raised by `rom_load` after a cycle has run: "a model refuses rom_load at any other time" (R127). Safe. -/
  | romLoadAfterCycle
  /-- Raised by a tick operation in Coupled mode: "there are no tick events" (60_exceptions.md R116). Safe. -/
  | tickInCoupledMode
  deriving DecidableEq, Repr

/-- The status that a cycle returns (60_exceptions.md R105). -/
inductive Status where
  | ok
  | unrecognizedInstruction (w : Word)
  | fatal (e : Fault)
  deriving DecidableEq, Repr

/-- `RUN`: normal dispatch, or waiting for a key edge that will be written to `V[t]` (10_state.md R26). -/
inductive Run where
  | running
  | awaitingKey (t : Reg)
  deriving DecidableEq, Repr

/-- `DISP[r][c]`: 32 rows of 64 pixels, row 0 and column 0 first (10_state.md R27). -/
abbrev Display := Vector (Vector Bool 64) 32

/-- `MEM`: the bytes that differ from what they hold after construction, by rising address. -/
abbrev Memory := List Host.Cell

/-- What the host can do between two cycles (60_exceptions.md R118); `cycle` is the step itself, and `frame` and `sound` only
read the state. -/
inductive HostOp where
  | reset
  | romLoad (bytes : List Byte)
  | setKeys (k16 : Word)
  | tick
  deriving DecidableEq, Repr

/-- What comes from outside for one cycle: the host's operations in the gap before it, in order, and its `RND`. -/
structure CycleInput where
  ops : List HostOp
  rnd : Byte
  deriving DecidableEq, Repr

/-- The environment's side: the MODEL's own fields, no state of the spec. -/
structure Env where
  /-- the inputs of the coming cycles, the next one first (assumption log 3) -/
  inputs : List CycleInput
  /-- how many cycles have completed: what the free value of `RND` is applied to (assumption log 2) -/
  draws  : Nat
  /-- no cycle has completed since construction or reset (70_reset_and_hazards.md R127; assumption log 5) -/
  fresh  : Bool
  /-- the status that the last completed cycle returned (60_exceptions.md R105; assumption log 4) -/
  status : Status
  deriving DecidableEq, Repr

/-- The complete state of the block (10_state.md R13), under the spec's own names, and the model's own `params` and `env`. -/
structure State where
  /-- the general registers, `V[15]` also the flag (R14, R15) -/
  V        : Vector Byte 16
  /-- the address register (R17) -/
  I        : Word
  /-- the program counter (R18) -/
  pc       : Word
  /-- the number of stacked return addresses, 0..16 (R21) -/
  SP       : Fin 17
  /-- the return addresses (R22) -/
  STACK    : Vector Word 16
  /-- the delay timer (R23) -/
  DT       : Byte
  /-- the sound timer (R23) -/
  ST       : Byte
  /-- bit k is 1 when key k is pressed (R24) -/
  KEYS     : Word
  /-- the key levels that the previous completed cycle saw (R25) -/
  KEY_PREV : Word
  /-- the key-wait sub-state (R26) -/
  RUN      : Run
  /-- the display buffer (R27) -/
  DISP     : Display
  /-- the memory (20_memory.md R30) -/
  MEM      : Memory
  /-- the named parameters (00_scope.md R8), which no step changes -/
  params   : Params
  /-- the environment's side -/
  env      : Env
  deriving DecidableEq, Repr

/-- Construction (10_state.md R29, 70_reset_and_hazards.md R126): `pc` at 0x200, FONT in memory, all else zero, released, clear or
`Running`. The zeros are the spec's decision D4 (assumption log 6). -/
def State.construct (p : Params) : State where
  V := Vector.replicate 16 0x00#8
  I := 0x0000#16
  pc := 0x0200#16
  SP := 0
  STACK := Vector.replicate 16 0x0000#16
  DT := 0x00#8
  ST := 0x00#8
  KEYS := 0x0000#16
  KEY_PREV := 0x0000#16
  RUN := .running
  DISP := Vector.replicate 32 (Vector.replicate 64 false)
  MEM := []
  params := p
  env := { inputs := [], draws := 0, fresh := true, status := .ok }

/-- The state after reset, with the default parameters of 00_scope.md R8 (R29, R126). -/
def State.reset : State := State.construct defaultParams

end Sys2Proof.Machine
end

