-- ==== Sys2Proof/Machine/Ops.lean ====
section
/-! DEFINITION. The named operations over memory, registers, call stack, timers and keys: the primitives of 00_scope.md R11. -/

namespace Sys2Proof.Machine

/-- What an instruction or a cycle answers. -/
abbrev Result := Host.Outcome State Fault Refusal

/-! ### Errors: the one way an instruction ends without its effect -/

/-- `raise E(info)` (R11): a fatal error changes no state, transfers no control and saves nothing (60_exceptions.md R107, R110), so
it is the whole of "taking an exception" on this hardware; there is no return from one (R111). -/
def raise (e : Fault) : Result := .fault e

/-- `CheckRange(a, len)` before an access of `len >= 1` bytes at `a`, on exact integers, in front of the rest `k` of the
instruction (20_memory.md R33). -/
def checkRange (a len : Nat) (k : Result) : Result :=
  if a + len - 1 ≥ Config.memSize then raise (.addressOutOfRange (max a Config.memSize)) else k

/-! ### Memory -/

/-- The byte at `a`: the listed one, or what an unlisted address reads as. -/
def Memory.read (font : Vector Byte 80) : Memory → Nat → Byte
  | [], a => unlistedByte font a
  | (b, v) :: rest, a => if b = a then v else Memory.read font rest a

/-- Puts a cell in front of the first cell with a greater address. -/
def Memory.insert (c : Host.Cell) : Memory → Memory
  | [] => [c]
  | d :: rest => if c.1 < d.1 then c :: d :: rest else d :: Memory.insert c rest

/-- Sets the byte at `a`, keeping the list sorted and free of bytes that an unlisted address reads as anyway. -/
def Memory.write (font : Vector Byte 80) (m : Memory) (a : Nat) (v : Byte) : Memory :=
  let others := m.filter fun c => c.1 != a
  if v = unlistedByte font a then others else Memory.insert (a, v) others

/-- The canonical form: addresses strictly rising and below 4096, and no byte that an unlisted address reads as. -/
abbrev Memory.wf (font : Vector Byte 80) (m : Memory) : Prop :=
  m.Pairwise (fun c d => c.1 < d.1) ∧ ∀ c ∈ m, c.1 < Config.memSize ∧ c.2 ≠ unlistedByte font c.1

/-- `MemRead(a, 1)` (20_memory.md R31). -/
def memRead (s : State) (a : Nat) : Byte := Memory.read s.params.font s.MEM a

/-- `MemWrite(a, 1, v)` (20_memory.md R32). -/
def memWrite (a : Nat) (v : Byte) (s : State) : State :=
  { s with MEM := Memory.write s.params.font s.MEM a v }

/-- `MemRead(a + k, 1)` for k = 0, 1, ..., n - 1. -/
def memReadBytes (s : State) (a n : Nat) : List Byte := (List.range n).map fun k => memRead s (a + k)

/-- `MemWrite(a + k, 1, b_k)` for the bytes b_0, b_1, ... in order. -/
def memWriteBytes (a : Nat) : List Byte → State → State
  | [], s => s
  | b :: rest, s => memWriteBytes (a + 1) rest (memWrite a b s)

/-! ### Registers -/

/-- `V[x]`. -/
def getV (s : State) (x : Reg) : Byte := s.V[x.val]

/-- `V[x] <- v`. -/
def setV (x : Reg) (v : Byte) (s : State) : State := { s with V := s.V.set x.val v }

/-- The flag is written first and the result second, so the result wins when `x = 15` (41_alu.md R71). -/
def setFlagThenResult (flag : Byte) (x : Reg) (result : Byte) (s : State) : State := setV x result (setV VF flag s)

/-- `V[k] <- bytes[k]` for `k` in 0..x, all bytes given beforehand (42_index_memory.md R90). -/
def setVBlock (x : Reg) (bytes : List Byte) (s : State) : State :=
  { s with V := Vector.ofFn fun k : Fin 16 => if k ≤ x then bytes.getD k.val 0x00#8 else s.V[k.val] }

/-- `I <- v`. -/
def setI (v : Word) (s : State) : State := { s with I := v }

/-- `DT <- v`. -/
def setDT (v : Byte) (s : State) : State := { s with DT := v }

/-- `ST <- v`. -/
def setST (v : Byte) (s : State) : State := { s with ST := v }

/-- `RUN <- r`. -/
def setRUN (r : Run) (s : State) : State := { s with RUN := r }

/-- `DISP <- d`. -/
def setDISP (d : Display) (s : State) : State := { s with DISP := d }

/-! ### The program counter and the call stack -/

/-- `pc <- target`. -/
def setPc (target : Word) (s : State) : State := { s with pc := target }

/-- `pc <- pc + 2`, the default advance (10_state.md R19). -/
def advance (s : State) : State := setPc (s.pc + 2) s

/-- `pc <- pc + 4` when the condition holds and `pc <- pc + 2` otherwise (R19). -/
def skipIf (c : Bool) (s : State) : State := setPc (if c then s.pc + 4 else s.pc + 2) s

/-- `STACK[SP] <- a; SP <- SP + 1`, or the error when the stack is full (10_state.md R21, 40_control_flow.md R64). -/
def pushReturn (a : Word) (s : State) (k : State → Result) : Result :=
  if h : s.SP.val < Config.stackDepth then
    k { s with STACK := s.STACK.set s.SP.val a, SP := ⟨s.SP.val + 1, Nat.succ_lt_succ h⟩ }
  else raise (.stackOverflow s.pc)

/-- `STACK[SP - 1]` and `SP <- SP - 1`, or the error when the stack is empty (R21, 40_control_flow.md R62). -/
def popReturn (s : State) (k : Word → State → Result) : Result :=
  if h : s.SP.val = 0 then raise (.stackUnderflow s.pc)
  else
    k (s.STACK[s.SP.val - 1]'(by have := s.SP.isLt; omega))
      { s with SP := ⟨s.SP.val - 1, by have := s.SP.isLt; omega⟩ }

/-! ### Timers -/

/-- One timer of `Tick()`: "a timer at 0 stays at 0" (60_exceptions.md R114). -/
def tickTimer (t : Byte) : Byte := if t = 0x00#8 then t else t - 1

/-- `Tick()` (R114). -/
def tick (s : State) : State := setST (tickTimer s.ST) (setDT (tickTimer s.DT) s)

/-! ### Keys -/

/-- The level of key `k` (10_state.md R24). -/
def keyLevel (s : State) (k : Reg) : Bool := s.KEYS.getLsbD k.val

/-- The 16-bit edge mask `KEYS AND NOT KEY_PREV` (44_timer_input.md R97, R98). -/
def keyEdges (s : State) : Word := s.KEYS &&& ~~~s.KEY_PREV

/-- "the lowest index with E[k] = 1" (R98). -/
def lowestKey (e : Word) : Option Reg := (List.finRange 16).find? fun k => e.getLsbD k.val

/-! ### The random input -/

/-- `RND` of the cycle at hand (30_encoding.md R59): the host's byte, or a free value where the input list has ended
(assumption log 2). -/
def rnd (s : State) : Byte :=
  match s.env.inputs with
  | input :: _ => input.rnd
  | [] => Config.freeRnd s.env.draws

end Sys2Proof.Machine
end

