-- ==== Sys2Proof/Machine/Operands.lean ====
section
/-! DEFINITION. Operand forms: zero extension, effective addresses, sprite origins, the register block of store-regs, the key level that a
register selects. -/

namespace Sys2Proof.Machine

/-- `zext_16` of a 12-bit address (30_encoding.md R47). -/
def zext16 (a : Addr12) : Word := a.setWidth 16

/-- The effective address of the first byte of an access through `I`: the exact integer (42_index_memory.md R84). -/
def addrI (s : State) : Nat := s.I.toNat

/-- `V[0]`, ..., `V[x]` (42_index_memory.md R89). -/
def regBlock (s : State) (x : Reg) : List Byte := s.V.toList.take (x.val + 1)

/-- `zext_16(nnn) + V[0]`, not masked to 12 bits (40_control_flow.md R69). -/
def offsetTarget (s : State) (nnn : Addr12) : Word := zext16 nnn + (getV s 0).setWidth 16

/-- `ox = V[x] mod 64`, the column of a sprite's origin (43_display.md R91). -/
def originCol (s : State) (x : Reg) : Nat := (getV s x).toNat % 64

/-- `oy = V[y] mod 32`, the row of a sprite's origin (43_display.md R91). -/
def originRow (s : State) (y : Reg) : Nat := (getV s y).toNat % 32

/-- The decimal digits of a byte: hundreds, tens, ones (42_index_memory.md R88). -/
def bcdDigits (v : Byte) : List Byte :=
  [BitVec.ofNat 8 (v.toNat / 100), BitVec.ofNat 8 (v.toNat / 10 % 10), BitVec.ofNat 8 (v.toNat % 10)]

/-- `KeyPressed(v)` (44_timer_input.md R96), in front of the rest of the instruction. -/
def keyPressed (s : State) (v : Byte) (k : Bool → Result) : Result :=
  if v.toNat ≤ 15 then k (keyLevel s (Fin.ofNat 16 v.toNat))
  else
    match s.params.keyIndexPolicy with
    | .fault => raise (.keyIndexOutOfRange v)
    | .maskLowNibble => k (keyLevel s (Fin.ofNat 16 v.toNat))
    | .notPressed => k false

end Sys2Proof.Machine
end

