-- ==== Sys2Proof/Machine/Flags.lean ====
section
/-! DEFINITION. Everything that is written to VF as a flag (10_state.md R15), computed from the operands before the instruction
(41_alu.md R71). -/

namespace Sys2Proof.Machine

/-- A flag value: 1 or 0. -/
def flagOf (b : Bool) : Byte := if b then 0x01#8 else 0x00#8

/-- The carry of `a + b`: 1 when the exact sum is over 255 (R78). -/
def carryFlag (a b : Byte) : Byte := flagOf (decide (a.toNat + b.toNat > 255))

/-- Not-borrow of `a - b`: 1 when `a >= b` (R79). -/
def notBorrowFlag (a b : Byte) : Byte := flagOf (decide (a.toNat ≥ b.toNat))

/-- The bit that a right shift moves out: bit 0 (R80). -/
def lowBitFlag (a : Byte) : Byte := a &&& 0x01#8

/-- The bit that a left shift moves out: bit 7 (R82). -/
def highBitFlag (a : Byte) : Byte := a >>> 7

end Sys2Proof.Machine
end

