-- ==== Sys2Proof/Machine/Alu.lean ====
section
/-! DEFINITION. Register loads, arithmetic and logic (spec/41_alu.md). -/

namespace Sys2Proof.Machine

/-- The shape of an instruction that writes `V[x]` and no flag. -/
def writeReg (x : Reg) (v : Byte) (s : State) : Result := .next (advance (setV x v s))

/-- The shape of an instruction that writes a flag to VF and then its result to `V[x]` (R71). -/
def writeFlagAndReg (flag : Byte) (x : Reg) (v : Byte) (s : State) : Result :=
  .next (advance (setFlagThenResult flag x v s))

/-- load-imm Vx, kk (R72). -/
def execLoadImm (x : Reg) (kk : Byte) (s : State) : Result := writeReg x kk s

/-- add-imm Vx, kk (R73): no flag. -/
def execAddImm (x : Reg) (kk : Byte) (s : State) : Result := writeReg x (getV s x + kk) s

/-- load-reg Vx, Vy (R74). -/
def execLoadReg (x y : Reg) (s : State) : Result := writeReg x (getV s y) s

/-- or Vx, Vy (R75). -/
def execOr (x y : Reg) (s : State) : Result := writeReg x (getV s x ||| getV s y) s

/-- and Vx, Vy (R76). -/
def execAnd (x y : Reg) (s : State) : Result := writeReg x (getV s x &&& getV s y) s

/-- xor Vx, Vy (R77). -/
def execXor (x y : Reg) (s : State) : Result := writeReg x (getV s x ^^^ getV s y) s

/-- add-reg Vx, Vy (R78). -/
def execAddReg (x y : Reg) (s : State) : Result :=
  writeFlagAndReg (carryFlag (getV s x) (getV s y)) x (getV s x + getV s y) s

/-- sub-reg Vx, Vy (R79). -/
def execSubReg (x y : Reg) (s : State) : Result :=
  writeFlagAndReg (notBorrowFlag (getV s x) (getV s y)) x (getV s x - getV s y) s

/-- shift-right Vx (R80): `y` is not read. -/
def execShiftRight (x _y : Reg) (s : State) : Result :=
  writeFlagAndReg (lowBitFlag (getV s x)) x (getV s x >>> 1) s

/-- subn-reg Vx, Vy (R81). -/
def execSubnReg (x y : Reg) (s : State) : Result :=
  writeFlagAndReg (notBorrowFlag (getV s y) (getV s x)) x (getV s y - getV s x) s

/-- shift-left Vx (R82): `y` is not read. -/
def execShiftLeft (x _y : Reg) (s : State) : Result :=
  writeFlagAndReg (highBitFlag (getV s x)) x (getV s x <<< 1) s

/-- random Vx, kk (R83). -/
def execRandom (x : Reg) (kk : Byte) (s : State) : Result := writeReg x (rnd s &&& kk) s

end Sys2Proof.Machine
end

