-- ==== Sys2Proof/Machine/ControlFlow.lean ====
section
/-! DEFINITION. Control transfer and the register skips (spec/40_control_flow.md). -/

namespace Sys2Proof.Machine

/-- return (R62). -/
def execReturn (s : State) : Result := popReturn s fun entry t => .next (setPc entry t)

/-- jump nnn (R63). -/
def execJump (nnn : Addr12) (s : State) : Result := .next (setPc (zext16 nnn) s)

/-- call nnn (R64). -/
def execCall (nnn : Addr12) (s : State) : Result := pushReturn (s.pc + 2) s fun t => .next (setPc (zext16 nnn) t)

/-- skip-eq-imm Vx, kk (R65). -/
def execSkipEqImm (x : Reg) (kk : Byte) (s : State) : Result := .next (skipIf (getV s x == kk) s)

/-- skip-neq-imm Vx, kk (R66). -/
def execSkipNeqImm (x : Reg) (kk : Byte) (s : State) : Result := .next (skipIf (getV s x != kk) s)

/-- skip-eq-reg Vx, Vy (R67). -/
def execSkipEqReg (x y : Reg) (s : State) : Result := .next (skipIf (getV s x == getV s y) s)

/-- skip-neq-reg Vx, Vy (R68). -/
def execSkipNeqReg (x y : Reg) (s : State) : Result := .next (skipIf (getV s x != getV s y) s)

/-- jump-offset nnn (R69): the offset register is always V0. -/
def execJumpOffset (nnn : Addr12) (s : State) : Result := .next (setPc (offsetTarget s nnn) s)

/-- The unrecognized word (30_encoding.md R51): a no-op that advances `pc`; the cycle reports it. -/
def execUnrecognized (s : State) : Result := .next (advance s)

end Sys2Proof.Machine
end

