-- ==== Sys2Proof/Machine/Display.lean ====
section
/-! DEFINITION. The display buffer and the XOR raster (spec/43_display.md). -/

namespace Sys2Proof.Machine

/-- `DISP[r][c]`. -/
def pixel (d : Display) (r : Fin 32) (c : Fin 64) : Bool := d[r.val][c.val]

/-- `DISP[r][c] <- DISP[r][c] XOR 1`. -/
def flipPixel (d : Display) (r : Fin 32) (c : Fin 64) : Display :=
  d.set r.val (d[r.val].set c.val (!pixel d r c))

/-- A sprite bit of 1 landing on a pixel: the collision result becomes 1 if the pixel was 1, and the pixel is inverted (R93). -/
def hitPixel (dh : Display × Bool) (r : Fin 32) (c : Fin 64) : Display × Bool :=
  (flipPixel dh.1 r c, dh.2 || pixel dh.1 r c)

/-- Column offset `c` of a sprite row is bit `7 - c` of its byte (R92). -/
def spriteBit (row : Byte) (c : Nat) : Bool := row.getLsbD (7 - c)

/-- One sprite row: its 8 columns, wrapping at column 64 (R91). -/
def drawRow (r : Fin 32) (ox : Nat) (row : Byte) (dh : Display × Bool) : Display × Bool :=
  (List.range 8).foldl (fun dh c => if spriteBit row c then hitPixel dh r (Fin.ofNat 64 (ox + c)) else dh) dh

/-- The rows of a sprite from display row `oy` on, wrapping at row 32 (R91). -/
def drawRows (oy ox : Nat) : List Byte → Display × Bool → Display × Bool
  | [], dh => dh
  | row :: rest, dh => drawRows (oy + 1) ox rest (drawRow (Fin.ofNat 32 oy) ox row dh)

/-- clear-screen (R94). -/
def execClearScreen (s : State) : Result := .next (advance (setDISP (Vector.replicate 32 (Vector.replicate 64 false)) s))

/-- The effect of draw once its sprite is known to be readable: pixels, then VF, then `pc` (R95). -/
def drawSprite (x y : Reg) (n : Nat) (s : State) : Result :=
  let (d, hit) := drawRows (originRow s y) (originCol s x) (memReadBytes s (addrI s) n) (s.DISP, false)
  .next (advance (setV VF (flagOf hit) (setDISP d s)))

/-- draw Vx, Vy, n (R95): with `n = 0` there is no range check. -/
def execDraw (x y : Reg) (n : Nat) (s : State) : Result :=
  if n > 0 then checkRange (addrI s) n (drawSprite x y n s) else drawSprite x y n s

end Sys2Proof.Machine
end

