-- ==== Sys2Proof/Machine/IndexMemory.lean ====
section
/-! DEFINITION. The address register and the memory transfers (spec/42_index_memory.md). -/

namespace Sys2Proof.Machine

/-- load-addr nnn (R85). -/
def execLoadAddr (nnn : Addr12) (s : State) : Result := .next (advance (setI (zext16 nnn) s))

/-- add-addr Vx (R86): a 16-bit add, no flag. -/
def execAddAddr (x : Reg) (s : State) : Result := .next (advance (setI (s.I + (getV s x).setWidth 16) s))

/-- font-addr Vx (R87): the exact product of the whole register. -/
def execFontAddr (x : Reg) (s : State) : Result := .next (advance (setI (BitVec.ofNat 16 ((getV s x).toNat * 5)) s))

/-- store-bcd Vx (R88). -/
def execStoreBcd (x : Reg) (s : State) : Result :=
  checkRange (addrI s) 3 (.next (advance (memWriteBytes (addrI s) (bcdDigits (getV s x)) s)))

/-- store-regs Vx (R89): `I` is unchanged. -/
def execStoreRegs (x : Reg) (s : State) : Result :=
  checkRange (addrI s) (x.val + 1) (.next (advance (memWriteBytes (addrI s) (regBlock s x) s)))

/-- load-regs Vx (R90): all bytes are read before any register is written. -/
def execLoadRegs (x : Reg) (s : State) : Result :=
  checkRange (addrI s) (x.val + 1) (.next (advance (setVBlock x (memReadBytes s (addrI s) (x.val + 1)) s)))

end Sys2Proof.Machine
end

