-- ==== Sys2Proof/Machine/TimerInput.lean ====
section
/-! DEFINITION. Key input and timer instructions, and the key wait (spec/44_timer_input.md). -/

namespace Sys2Proof.Machine

/-- skip-key-pressed Vx (R99). -/
def execSkipKeyPressed (x : Reg) (s : State) : Result := keyPressed s (getV s x) fun p => .next (skipIf p s)

/-- skip-key-not-pressed Vx (R100). -/
def execSkipKeyNotPressed (x : Reg) (s : State) : Result := keyPressed s (getV s x) fun p => .next (skipIf (!p) s)

/-- load-delay Vx (R101). -/
def execLoadDelay (x : Reg) (s : State) : Result := .next (advance (setV x s.DT s))

/-- wait-key Vx (R102): `V[x]` is written by the cycle that resolves the wait. -/
def execWaitKey (x : Reg) (s : State) : Result := .next (advance (setRUN (.awaitingKey x) s))

/-- set-delay Vx (R103). -/
def execSetDelay (x : Reg) (s : State) : Result := .next (advance (setDT (getV s x) s))

/-- set-sound Vx (R104). -/
def execSetSound (x : Reg) (s : State) : Result := .next (advance (setST (getV s x) s))

/-- `ResolveWait(t)` (R98): the lowest key with an edge is written to `V[t]` and the wait ends; without an edge nothing happens. -/
def resolveWait (t : Reg) (s : State) : State :=
  match lowestKey (keyEdges s) with
  | some k => setRUN .running (setV t (BitVec.ofNat 8 k.val) s)
  | none => s

end Sys2Proof.Machine
end

