-- ==== Sys2Proof/Machine/Cycle.lean ====
section
/-! DEFINITION. The block's one execution operation, `cycle` (30_encoding.md R57, R58, R60), and its status (60_exceptions.md R105). -/

namespace Sys2Proof.Machine

/-- In Coupled mode every Running cycle applies one `Tick()` before it fetches (60_exceptions.md R116). -/
def coupledTick (s : State) : State :=
  match s.params.timerMode with
  | .coupled => tick s
  | .decoupled => s

/-- `MemRead(pc, 2)`: the word at `pc`, big-endian (R58; 20_memory.md R38). -/
def fetchWord (s : State) : Word := wordOfBytes (memRead s s.pc.toNat) (memRead s (s.pc.toNat + 1))

/-- What a completed cycle leaves besides the instruction's writes: `KEY_PREV <- KEYS` (R57), and on the environment's side its
input used up, one draw counted, its status returned. -/
def complete (st : Status) (s : State) : State :=
  { s with
    KEY_PREV := s.KEYS
    env := { inputs := s.env.inputs.tail, draws := s.env.draws + 1, fresh := false, status := st } }

/-- A cycle completes where its instruction gave a next state; a fatal error leaves nothing (R57; 60_exceptions.md R107). -/
def completeWith (st : Status) : Result → Result
  | .next t => .next (complete st t)
  | .fault e => .fault e
  | .refused r => .refused r

/-- Decode and execute one word (R57, R60); an unrecognized word completes and is reported (R51, 60_exceptions.md R106). -/
def runWord (w : Word) (s : State) : Result :=
  match decode w with
  | .instr i => completeWith .ok (exec i s)
  | .unrecognized w => completeWith (.unrecognizedInstruction w) (execUnrecognized s)

/-- `cycle(RND)` (R57): a waiting block only resolves the wait; a running one checks the fetch range, fetches, decodes and
executes. `RND` is `rnd s`. -/
def cycle (s : State) : Result :=
  match s.RUN with
  | .awaitingKey t => .next (complete .ok (resolveWait t s))
  | .running => checkRange s.pc.toNat 2 (runWord (fetchWord s) (coupledTick s))

/-- The status that a cycle's result stands for; a refusal is none of the block's statuses. -/
def statusOf : Result → Option Status
  | .next t => some t.env.status
  | .fault e => some (.fatal e)
  | .refused _ => none

/-- The status codes (60_exceptions.md R105). -/
def Status.code : Status → Nat
  | .ok => 0
  | .unrecognizedInstruction _ => 1
  | .fatal (.stackOverflow _) => 2
  | .fatal (.stackUnderflow _) => 3
  | .fatal (.addressOutOfRange _) => 4
  | .fatal (.keyIndexOutOfRange _) => 5

end Sys2Proof.Machine
end

