-- ==== Sys2Proof/Machine/Interface.lean ====
section
/-! DEFINITION. The host's operations between cycles and its two outputs (60_exceptions.md R118 to R121, 70_reset_and_hazards.md
R126, R127). -/

namespace Sys2Proof.Machine

/-- `reset()`: the whole state, memory included, back to construction (R126); the parameters and the environment's schedule are
not the block's and stay (assumption log 25). -/
def hostReset (s : State) : State :=
  { State.construct s.params with env := { s.env with fresh := true, status := .ok } }

/-- `rom_load(bytes)` (R127). -/
def romLoad (bytes : List Byte) (s : State) : Result :=
  if bytes.length > Config.romMax then .refused (.romTooLarge bytes.length)
  else if s.env.fresh then .next (memWriteBytes Config.programBase bytes s)
  else .refused .romLoadAfterCycle

/-- `set_keys(k16)` (R119). -/
def setKeys (k16 : Word) (s : State) : State := { s with KEYS := k16 }

/-- `tick()`, in Decoupled mode only (R115, R116). -/
def hostTick (s : State) : Result :=
  match s.params.timerMode with
  | .decoupled => .next (tick s)
  | .coupled => .refused .tickInCoupledMode

/-- One operation of the host (R118). -/
def applyHostOp (op : HostOp) (s : State) : Result :=
  match op with
  | .reset => .next (hostReset s)
  | .romLoad bytes => romLoad bytes s
  | .setKeys k16 => .next (setKeys k16 s)
  | .tick => hostTick s

/-- The operations of one gap, in order, "one at a time" (R118). -/
def applyHostOps : List HostOp → State → Result
  | [], s => .next s
  | op :: rest, s =>
    match applyHostOp op s with
    | .next t => applyHostOps rest t
    | .fault e => .fault e
    | .refused r => .refused r

/-- The operations of the gap before the next cycle. -/
def gapOps (s : State) : List HostOp :=
  match s.env.inputs with
  | input :: _ => input.ops
  | [] => []

/-- `frame()`: a read-only copy of the display buffer (R120). -/
def frame (s : State) : Display := s.DISP

/-- `sound()`: the sound timer and whether it sounds (R121). -/
def sound (s : State) : Byte × Bool := (s.ST, s.ST != 0x00#8)

/-- Where the next fetch reads: at `pc`, or at the start of the program where `pc` has no room for a word (assumption log 24). -/
def fetchPlace (s : State) : Word := if s.pc.toNat + 1 < Config.memSize then s.pc else 0x0200#16

/-- The environment with the host doing nothing in the gap before the next cycle. -/
def quietGap (e : Env) : Env :=
  match e.inputs with
  | input :: rest => { e with inputs := { input with ops := [] } :: rest }
  | [] => e

/-- The state with the bytes of a word stored where the next cycle fetches, and nothing in the way of that fetch: the block
running, `pc` inside memory, the host quiet in the gap (assumption log 24). -/
def placeWord (hi lo : Byte) (s : State) : State :=
  let t := { setRUN .running (setPc (fetchPlace s) s) with env := quietGap s.env }
  memWriteBytes t.pc.toNat [hi, lo] t

end Sys2Proof.Machine
end

