-- ==== Sys2Proof/Machine/Step.lean ====
section
/-! DEFINITION. One step of the machine: the host's operations of the gap, then one cycle (60_exceptions.md R118, 30_encoding.md R57). -/

namespace Sys2Proof.Machine

/-- One step: what the host does before the next cycle, and that cycle. -/
def step (s : State) : Host.Outcome State Fault Refusal :=
  match applyHostOps (gapOps s) s with
  | .next t => cycle t
  | .fault e => .fault e
  | .refused r => .refused r

/-- The state with the instruction whose bits are `w` (below `nbits`) stored where the next step fetches (assumption log 24). -/
def State.withFetchWord (s : State) (nbits w : Nat) : State :=
  let word : Word := BitVec.ofNat 16 (w % 2 ^ nbits)
  placeWord (hiByte word) (loByte word) s

end Sys2Proof.Machine
end

