-- ==== Sys2Proof/Safety.lean ====
section
/-! DEFINITION. What counts as a safe state and a safe run, in the terms that claims use. -/

namespace Sys2Proof.Machine

/-- What every state of a run satisfies: the memory is in canonical form, `pc` is at most 0x10FE (10_state.md R20), and no stacked
return address is over 0x1000 (92_eei_decisions.md D7). -/
abbrev State.Inv (s : State) : Prop :=
  Memory.wf s.params.font s.MEM ∧ s.pc.toNat ≤ 0x10FE ∧ ∀ j : Fin 16, j.val < s.SP.val → (s.STACK[j.val]).toNat ≤ 0x1000

/-- The block can run `k` cycles from `s` with no fatal error (60_exceptions.md R105) and no refused operation of the host. -/
def SafeRun (k : Nat) (s : State) : Prop := ∃ t, Host.Core.run core k s = .next t

/-- The block stands at a halt loop: the instruction at `pc` is `jump pc` (70_reset_and_hazards.md R134). -/
def HaltLoop (s : State) : Prop :=
  s.RUN = .running ∧ s.pc.toNat + 1 < Config.memSize ∧ ∃ nnn, decode (fetchWord s) = .instr (.jump nnn) ∧ zext16 nnn = s.pc

end Sys2Proof.Machine
end

