-- ==== Sys2Proof/Certificates/Slice0/Obligations.lean ====
section
/-! DEFINITION. The statements for the provers. Each docstring names the rule of spec/ it formalises; where a clause rests on a
decision of the spec (92_eei_decisions.md) or on a choice of the model (assumption log), it says so. -/

namespace Sys2Proof.Claims

open Sys2Proof.Machine

/-- `x` of a word as a number: w[11:8] (30_encoding.md R46, 00_scope.md R9). -/
def xOf (w : Word) : Reg := Fin.ofNat 16 (w.toNat / 256)

/-- `y` of a word as a number: w[7:4]. -/
def yOf (w : Word) : Reg := Fin.ofNat 16 (w.toNat / 16)

/-- `n` of a word as a number: w[3:0]. -/
def nOf (w : Word) : Nat := w.toNat % 16

/-- `nnn` of a word as a number: w[11:0]. -/
def nnnOf (w : Word) : Addr12 := BitVec.ofNat 12 w.toNat

/-- `kk` of a word as a number: w[7:0]. -/
def kkOf (w : Word) : Byte := BitVec.ofNat 8 w.toNat

/-- A word decodes to the instruction with these operands exactly when `w AND mask = value` (R49). -/
def Selects (mask value : Word) (f : Word → Instr) : Prop := ∀ w, decode w = .instr (f w) ↔ w &&& mask = value

/-- The word at `pc`: the byte there is bits 15..8 (20_memory.md R38). -/
def wordAtPc (s : State) : Word :=
  BitVec.ofNat 16 ((memRead s s.pc.toNat).toNat * 256 + (memRead s (s.pc.toNat + 1)).toNat)

/-- The state that a Running cycle executes against: ticked in Coupled mode (60_exceptions.md R116). -/
def tickedIfCoupled (s : State) : State := if s.params.timerMode = .coupled then tick s else s

/-- What every completed cycle leaves besides its instruction's writes: KEY_PREV and the environment's side (30_encoding.md R57). -/
def completed (st : Status) (u : State) : State :=
  { u with
    KEY_PREV := u.KEYS
    env := { inputs := u.env.inputs.tail, draws := u.env.draws + 1, fresh := false, status := st } }

/-- Key `k` is pressed now and was released in the key state that the previous cycle saw (44_timer_input.md R97). -/
def Edge (s : State) (k : Reg) : Prop := s.KEYS.getLsbD k.val = true ∧ s.KEY_PREV.getLsbD k.val = false

/-- Display pixel (R, C) lies under a 1 bit of the n-row sprite at I drawn with its origin in V[x], V[y] (43_display.md R91, R92). -/
def UnderSprite (s : State) (x y : Reg) (n : Nat) (R : Fin 32) (C : Fin 64) : Prop :=
  ∃ r c, r < n ∧ c < 8 ∧ (memRead s (s.I.toNat + r)).getLsbD (7 - c) = true ∧
    R.val = ((s.V[y.val]).toNat % 32 + r) % 32 ∧ C.val = ((s.V[x.val]).toNat % 64 + c) % 64

/-- What `f` makes of the next state of a result; a fault or a refusal stays what it is. -/
def mapNext (f : State → State) : Result → Result
  | .next t => .next (f t)
  | .fault e => .fault e
  | .refused r => .refused r

end Sys2Proof.Claims

open Sys2Proof Sys2Proof.Machine Sys2Proof.Claims

/-! ### Encoding -/

/-- Decoding the word of a well-formed instruction gives the instruction back (30_encoding.md R48 to R50). -/
def Obligations.DecodeInvertsEncode : Prop :=
  ∀ i : Instr, i.wellFormed = true → decode (encode i) = .instr i

/-- A recognized word is the word of the instruction it decodes to, and that instruction is well-formed: no bit is dropped. -/
def Obligations.EncodeInvertsDecode : Prop :=
  ∀ (w : Word) (i : Instr), decode w = .instr i → i.wellFormed = true ∧ encode i = w

/-- The opcode map of 30_encoding.md R49, all 34 rows, with the fields of R46: a word decodes to the row's instruction, with the
word's fields as operands, exactly when `w AND mask = match`. (The patterns are supplied from general knowledge: log 8.) -/
def Obligations.OpcodeMapSelectsEveryInstruction : Prop :=
  Selects 0xFFFF#16 0x00E0#16 (fun _ => .clearScreen) ∧ Selects 0xFFFF#16 0x00EE#16 (fun _ => .ret) ∧
  Selects 0xF000#16 0x1000#16 (fun w => .jump (nnnOf w)) ∧ Selects 0xF000#16 0x2000#16 (fun w => .call (nnnOf w)) ∧
  Selects 0xF000#16 0x3000#16 (fun w => .skipEqImm (xOf w) (kkOf w)) ∧ Selects 0xF000#16 0x4000#16 (fun w => .skipNeqImm (xOf w) (kkOf w)) ∧
  Selects 0xF00F#16 0x5000#16 (fun w => .skipEqReg (xOf w) (yOf w)) ∧ Selects 0xF000#16 0x6000#16 (fun w => .loadImm (xOf w) (kkOf w)) ∧
  Selects 0xF000#16 0x7000#16 (fun w => .addImm (xOf w) (kkOf w)) ∧ Selects 0xF00F#16 0x8000#16 (fun w => .loadReg (xOf w) (yOf w)) ∧
  Selects 0xF00F#16 0x8001#16 (fun w => .orReg (xOf w) (yOf w)) ∧ Selects 0xF00F#16 0x8002#16 (fun w => .andReg (xOf w) (yOf w)) ∧
  Selects 0xF00F#16 0x8003#16 (fun w => .xorReg (xOf w) (yOf w)) ∧ Selects 0xF00F#16 0x8004#16 (fun w => .addReg (xOf w) (yOf w)) ∧
  Selects 0xF00F#16 0x8005#16 (fun w => .subReg (xOf w) (yOf w)) ∧ Selects 0xF00F#16 0x8006#16 (fun w => .shiftRight (xOf w) (yOf w)) ∧
  Selects 0xF00F#16 0x8007#16 (fun w => .subnReg (xOf w) (yOf w)) ∧ Selects 0xF00F#16 0x800E#16 (fun w => .shiftLeft (xOf w) (yOf w)) ∧
  Selects 0xF00F#16 0x9000#16 (fun w => .skipNeqReg (xOf w) (yOf w)) ∧ Selects 0xF000#16 0xA000#16 (fun w => .loadAddr (nnnOf w)) ∧
  Selects 0xF000#16 0xB000#16 (fun w => .jumpOffset (nnnOf w)) ∧ Selects 0xF000#16 0xC000#16 (fun w => .random (xOf w) (kkOf w)) ∧
  Selects 0xF000#16 0xD000#16 (fun w => .draw (xOf w) (yOf w) (nOf w)) ∧ Selects 0xF0FF#16 0xE09E#16 (fun w => .skipKeyPressed (xOf w)) ∧
  Selects 0xF0FF#16 0xE0A1#16 (fun w => .skipKeyNotPressed (xOf w)) ∧ Selects 0xF0FF#16 0xF007#16 (fun w => .loadDelay (xOf w)) ∧
  Selects 0xF0FF#16 0xF00A#16 (fun w => .waitKey (xOf w)) ∧ Selects 0xF0FF#16 0xF015#16 (fun w => .setDelay (xOf w)) ∧
  Selects 0xF0FF#16 0xF018#16 (fun w => .setSound (xOf w)) ∧ Selects 0xF0FF#16 0xF01E#16 (fun w => .addAddr (xOf w)) ∧
  Selects 0xF0FF#16 0xF029#16 (fun w => .fontAddr (xOf w)) ∧ Selects 0xF0FF#16 0xF033#16 (fun w => .storeBcd (xOf w)) ∧
  Selects 0xF0FF#16 0xF055#16 (fun w => .storeRegs (xOf w)) ∧ Selects 0xF0FF#16 0xF065#16 (fun w => .loadRegs (xOf w))

/-- The unrecognized words are exactly those listed by 30_encoding.md R51 (a list the spec marks as derived), and each decodes to
itself by name. The list follows from the patterns of general knowledge (PRESUMED, log 8) and from strict decoding, the spec's decision
D16 (log 14). -/
def Obligations.UnrecognizedWordsAreExactlyTheListed : Prop :=
  ∀ w : Word,
    (decode w = .unrecognized w ↔
      (w.toNat / 4096 = 0x0 ∧ w ≠ 0x00E0#16 ∧ w ≠ 0x00EE#16) ∨
      (w.toNat / 4096 = 0x5 ∧ w.toNat % 16 ≠ 0) ∨
      (w.toNat / 4096 = 0x9 ∧ w.toNat % 16 ≠ 0) ∨
      (w.toNat / 4096 = 0x8 ∧ w.toNat % 16 ∈ [0x8, 0x9, 0xA, 0xB, 0xC, 0xD, 0xF]) ∨
      (w.toNat / 4096 = 0xE ∧ w.toNat % 256 ∉ [0x9E, 0xA1]) ∨
      (w.toNat / 4096 = 0xF ∧ w.toNat % 256 ∉ [0x07, 0x0A, 0x15, 0x18, 0x1E, 0x29, 0x33, 0x55, 0x65])) ∧
    ((∃ i, decode w = .instr i) ∨ decode w = .unrecognized w)

/-- A word of each format, written out from 30_encoding.md R48 and R49, decodes to the instruction it stands for. The source confirms
return, call and load-imm; the patterns of sub-reg, draw and store-bcd are the spec's general knowledge (PRESUMED, log 8), and that
0x5121 is unrecognized is the spec's decision D16, strict decoding (log 14). -/
def Obligations.SampleWordsDecode : Prop :=
  decode 0b0000_0000_1110_1110#16 = .instr .ret ∧
  decode 0b0010_0010_0011_0100#16 = .instr (.call 0x234) ∧
  decode 0b0110_0000_1111_1111#16 = .instr (.loadImm 0 0xFF) ∧
  decode 0b1000_0001_0010_0101#16 = .instr (.subReg 1 2) ∧
  decode 0b1101_0001_0010_0101#16 = .instr (.draw 1 2 5) ∧
  decode 0b1111_1010_0011_0011#16 = .instr (.storeBcd 10) ∧
  decode 0b0101_0001_0010_0001#16 = .unrecognized 0x5121#16

/-! ### The cycle and the step -/

/-- A step whose word decodes to an instruction runs exactly it, around it the gap's host operations, the tick of Coupled mode,
KEY_PREV and the environment's side (30_encoding.md R57, R60; the environment's side is the model's own: log 2, log 3, log 4, log 5). With no scheduled input the
gap does nothing. -/
def Obligations.StepRunsTheDecodedInstruction : Prop :=
  (∀ s : State, s.env.inputs = [] → applyHostOps (gapOps s) s = .next s) ∧
  ∀ (s t : State) (i : Instr), applyHostOps (gapOps s) s = .next t → t.RUN = .running → t.pc.toNat + 1 < 4096 →
    decode (wordAtPc t) = .instr i →
    step s =
      match exec i (tickedIfCoupled t) with
      | .next u => .next (completed .ok u)
      | .fault e => .fault e
      | .refused r => .refused r

/-- An unrecognized word is a no-op that advances `pc` by 2, like every completed cycle updates KEY_PREV and in Coupled mode ticks,
and is reported (60_exceptions.md R106). That the status records the word is the spec's decision D29 (R105), and the rest of what the
equality says of the environment's side is the model's own: env.draws (log 2), env.inputs (log 3), env.status (log 4), env.fresh
(log 5). -/
def Obligations.UnrecognizedWordCompletesAndIsReported : Prop :=
  ∀ s : State, s.RUN = .running → s.pc.toNat + 1 < 4096 → (∀ i, decode (wordAtPc s) ≠ .instr i) →
    cycle s = .next { completed (.unrecognizedInstruction (wordAtPc s)) (tickedIfCoupled s) with pc := s.pc + 2 }

/-- The fetch range check: `pc + 1 >= 4096` raises AddressOutOfRange(max(pc, 4096)) (30_encoding.md R58, the spec's decision D10). -/
def Obligations.FetchOutOfRangeIsFatal : Prop :=
  ∀ s : State, s.RUN = .running → 4096 ≤ s.pc.toNat + 1 → cycle s = .fault (.addressOutOfRange (max s.pc.toNat 4096))

/-- A waiting cycle does only this: with an edge, the lowest edge key goes to `V[t]` and RUN to Running; without one, nothing but
KEY_PREV (44_timer_input.md R97, R98, 60_exceptions.md R125; the lowest index is the spec's decision D14, log 11; the
environment's side is the model's own: log 2, log 3, log 4, log 5). -/
def Obligations.WaitCycleResolvesOnTheLowestEdge : Prop :=
  ∀ (s : State) (t : Reg), s.RUN = .awaitingKey t →
    (∀ k : Reg, Edge s k → (∀ j < k, ¬ Edge s j) →
      cycle s = .next (completed .ok { s with V := s.V.set t.val (BitVec.ofNat 8 k.val), RUN := .running })) ∧
    ((∀ k, ¬ Edge s k) → cycle s = .next (completed .ok s))

/-- RUN becomes AwaitingKey(x) only by wait-key and Running again only by a key edge (10_state.md R26). -/
def Obligations.RunChangesOnlyByWaitKeyAndEdge : Prop :=
  ∀ s t : State, cycle s = .next t →
    t.RUN = s.RUN ∨
    (∃ x, s.RUN = .running ∧ decode (wordAtPc s) = .instr (.waitKey x) ∧ t.RUN = .awaitingKey x) ∨
    (∃ x k, s.RUN = .awaitingKey x ∧ Edge s k ∧ t.RUN = .running)

/-- After a fatal error the block is stuck: whatever ticks and key changes come first, the next cycle raises the same error
(60_exceptions.md R108, an inference the spec marks as derived). -/
def Obligations.FatalErrorIsRaisedAgain : Prop :=
  ∀ (s u : State) (e : Fault) (ops : List HostOp), cycle s = .fault e →
    (∀ op ∈ ops, op = .tick ∨ ∃ k, op = .setKeys k) → applyHostOps ops s = .next u → cycle u = .fault e

/-- Which instruction raises which fatal error, on what condition, with what record (60_exceptions.md R105, R109; the records are the
spec's decisions D29, D10, D13). -/
def Obligations.FatalErrorsOfEachInstruction : Prop :=
  ∀ (i : Instr) (s : State) (e : Fault), exec i s = .fault e ↔
    match i with
    | .ret => s.SP = 0 ∧ e = .stackUnderflow s.pc
    | .call _ => s.SP = 16 ∧ e = .stackOverflow s.pc
    | .draw _ _ n => 0 < n ∧ 4096 ≤ s.I.toNat + n - 1 ∧ e = .addressOutOfRange (max s.I.toNat 4096)
    | .storeBcd _ => 4096 ≤ s.I.toNat + 2 ∧ e = .addressOutOfRange (max s.I.toNat 4096)
    | .storeRegs x | .loadRegs x => 4096 ≤ s.I.toNat + x.val ∧ e = .addressOutOfRange (max s.I.toNat 4096)
    | .skipKeyPressed x | .skipKeyNotPressed x =>
      16 ≤ (s.V[x.val]).toNat ∧ s.params.keyIndexPolicy = .fault ∧ e = .keyIndexOutOfRange s.V[x.val]
    | _ => False

/-- No instruction is ever refused, in any state, and a step is refused only where the host's own operation is
(30_encoding.md R53, 60_exceptions.md R113). -/
def Obligations.NoInstructionIsRefused : Prop :=
  (∀ (i : Instr) (s : State) (r : Refusal), exec i s ≠ .refused r) ∧
  ∀ (s : State) (r : Refusal), step s = .refused r → applyHostOps (gapOps s) s = .refused r

/-- Every step that completes ends with KEY_PREV = KEYS and the parameters unchanged, and its status is Ok or reports a word that
decode does not recognize (30_encoding.md R57, 60_exceptions.md R105; env.status is the model's own: log 4). -/
def Obligations.CompletedStepSamplesKeysAndReports : Prop :=
  ∀ s t : State, step s = .next t →
    t.KEY_PREV = t.KEYS ∧ t.params = s.params ∧
    (t.env.status = .ok ∨ ∃ w, t.env.status = .unrecognizedInstruction w ∧ decode w = .unrecognized w)

/-- Coupled mode: a Running cycle that completes ticks each timer once, before its instruction, which reads the ticked DT and whose
own write to a timer is not decremented; a waiting cycle does not tick (60_exceptions.md R116, the spec's decisions D3 and D34). -/
def Obligations.CoupledModeTicksOncePerRunningCycle : Prop :=
  ∀ s t : State, s.params.timerMode = .coupled → cycle s = .next t →
    (s.RUN ≠ .running → t.DT = s.DT ∧ t.ST = s.ST) ∧
    (s.RUN = .running →
      ((∀ x, decode (wordAtPc s) ≠ .instr (.setDelay x)) → t.DT.toNat = s.DT.toNat - 1) ∧
      ((∀ x, decode (wordAtPc s) ≠ .instr (.setSound x)) → t.ST.toNat = s.ST.toNat - 1) ∧
      (∀ x, decode (wordAtPc s) = .instr (.setDelay x) → t.DT = s.V[x.val]) ∧
      (∀ x, decode (wordAtPc s) = .instr (.setSound x) → t.ST = s.V[x.val]) ∧
      (∀ x, decode (wordAtPc s) = .instr (.loadDelay x) → (t.V[x.val]).toNat = s.DT.toNat - 1))

/-- Decoupled mode: no cycle ticks, so only set-delay and set-sound change a timer within one (60_exceptions.md R115, the spec's
decision D2). -/
def Obligations.DecoupledCyclesDoNotTick : Prop :=
  ∀ s t : State, s.params.timerMode = .decoupled → cycle s = .next t →
    (t.DT = s.DT ∨ ∃ x, s.RUN = .running ∧ decode (wordAtPc s) = .instr (.setDelay x) ∧ t.DT = s.V[x.val]) ∧
    (t.ST = s.ST ∨ ∃ x, s.RUN = .running ∧ decode (wordAtPc s) = .instr (.setSound x) ∧ t.ST = s.V[x.val])

/-- At a halt loop in Decoupled mode every cycle completes and changes nothing but KEY_PREV and the environment's side, and the block
stands at the halt loop again (70_reset_and_hazards.md R134, 40_control_flow.md R63; the environment's side is the model's own: log 2,
log 3, log 4, log 5). -/
def Obligations.HaltLoopChangesNothing : Prop :=
  ∀ s : State, HaltLoop s → s.params.timerMode = .decoupled →
    cycle s = .next (completed .ok s) ∧ HaltLoop (completed .ok s)

/-! ### The host's operations and reset -/

/-- A tick decrements each timer that is not zero, leaves a timer at 0 alone, and changes nothing else (60_exceptions.md R114). -/
def Obligations.TickDecrementsNonzeroTimers : Prop :=
  ∀ s : State,
    (tick s).DT.toNat = (if s.DT.toNat > 0 then s.DT.toNat - 1 else 0) ∧
    (tick s).ST.toNat = (if s.ST.toNat > 0 then s.ST.toNat - 1 else 0) ∧
    tick s = { s with DT := (tick s).DT, ST := (tick s).ST }

/-- What each operation of the host between cycles leaves alone (60_exceptions.md R118, R119, R116: "No operation writes DISP, MEM
(other than rom_load), a register, the stack or RUN from outside"; the operations are the spec's decision D1). A reset gives the
constructed block (70_reset_and_hazards.md R126); what stays of the environment's side is the model's own (log 25). -/
def Obligations.HostOperationsTouchOnlyTheirOwnState : Prop :=
  ∀ (op : HostOp) (s t : State), applyHostOp op s = .next t →
    match op with
    | .setKeys k => t = { s with KEYS := k }
    | .tick => s.params.timerMode = .decoupled ∧ t = { s with DT := t.DT, ST := t.ST }
    | .romLoad bytes => bytes.length ≤ 3584 ∧ s.env.fresh = true ∧ t = { s with MEM := t.MEM }
    | .reset => t = { State.construct s.params with env := t.env } ∧ t.env.inputs = s.env.inputs ∧ t.env.draws = s.env.draws

/-- `rom_load` copies at most 3584 bytes to 0x200.., changes no other byte, and is refused for a longer image and after a cycle
(70_reset_and_hazards.md R127, the spec's decision D23; env.fresh is the model's own: log 5). -/
def Obligations.RomLoadCopiesTheImage : Prop :=
  ∀ (bytes : List Byte) (s : State),
    (bytes.length ≤ 3584 → s.env.fresh = true → ∃ t, applyHostOp (.romLoad bytes) s = .next t ∧
      (∀ k, k < bytes.length → memRead t (0x200 + k) = bytes.getD k 0) ∧
      (∀ a, a < 0x200 ∨ 0x200 + bytes.length ≤ a → memRead t a = memRead s a)) ∧
    (3584 < bytes.length → applyHostOp (.romLoad bytes) s = .refused (.romTooLarge bytes.length)) ∧
    (bytes.length ≤ 3584 → s.env.fresh = false → applyHostOp (.romLoad bytes) s = .refused .romLoadAfterCycle)

/-- Construction, for every value of the parameters: `pc` at 0x200, FONT at 0x000-0x04F, every other byte, register, timer, key,
pixel and stack count zero, RUN Running (10_state.md R29, 70_reset_and_hazards.md R126; the zeros are the spec's decision D4: log 6). -/
def Obligations.ConstructedStateIsTheResetState : Prop :=
  State.reset = State.construct defaultParams ∧
  ∀ p : Params, (State.construct p).pc = 0x200 ∧ (State.construct p).I = 0 ∧ (State.construct p).SP = 0 ∧
    (State.construct p).DT = 0 ∧ (State.construct p).ST = 0 ∧ (State.construct p).KEYS = 0 ∧
    (State.construct p).KEY_PREV = 0 ∧ (State.construct p).RUN = .running ∧ (State.construct p).params = p ∧
    (∀ j : Fin 16, (State.construct p).V[j.val] = 0 ∧ (State.construct p).STACK[j.val] = 0) ∧
    (∀ (r : Fin 32) (c : Fin 64), (State.construct p).DISP[r.val][c.val] = false) ∧
    (∀ j : Fin 80, memRead (State.construct p) j.val = p.font[j.val]) ∧
    (∀ a, 80 ≤ a → memRead (State.construct p) a = 0)

/-! ### Control flow -/

/-- jump nnn (40_control_flow.md R63): `pc` becomes nnn, nothing else changes, and a jump to its own address changes nothing.
(Its words are general knowledge of the spec: log 8.) -/
def Obligations.JumpSetsPc : Prop :=
  Selects 0xF000#16 0x1000#16 (fun w => .jump (nnnOf w)) ∧
  ∀ (nnn : Addr12) (s : State), ∃ t, exec (.jump nnn) s = .next t ∧ t.pc.toNat = nnn.toNat ∧ t = { s with pc := t.pc } ∧
    (nnn.toNat = s.pc.toNat → t = s)

/-- return (40_control_flow.md R62): the entry below SP goes to `pc` as stored and stays in its slot; with SP = 0 StackUnderflow(pc). -/
def Obligations.ReturnPopsTheEntry : Prop :=
  Selects 0xFFFF#16 0x00EE#16 (fun _ => .ret) ∧
  ∀ s : State,
    (∀ j : Fin 16, s.SP.val = j.val + 1 → exec .ret s = .next { s with pc := s.STACK[j.val], SP := j.castSucc }) ∧
    (s.SP.val = 0 → exec .ret s = .fault (.stackUnderflow s.pc))

/-- call nnn (40_control_flow.md R64; that SP counts 0..16 is the spec's decision D6: log 17). -/
def Obligations.CallPushesTheReturnAddress : Prop :=
  ∀ (nnn : Addr12) (s : State),
    (∀ j : Fin 16, s.SP.val = j.val →
      exec (.call nnn) s = .next { s with STACK := s.STACK.set j.val (s.pc + 2), SP := j.succ, pc := nnn.setWidth 16 }) ∧
    (s.SP.val = 16 → exec (.call nnn) s = .fault (.stackOverflow s.pc))

/-- "executing Call(nnn) then Return restores the program counter to its value immediately after the Call instruction"
(95_test_vectors.md S6); nothing but the stack slot differs then. -/
def Obligations.ReturnAfterCallResumes : Prop :=
  ∀ (nnn : Addr12) (s : State), s.SP.val < 16 →
    ∃ t u, exec (.call nnn) s = .next t ∧ exec .ret t = .next u ∧ u = { s with pc := s.pc + 2, STACK := u.STACK } ∧
      ∀ j : Fin 16, j.val ≠ s.SP.val → u.STACK[j.val] = s.STACK[j.val]

/-- jump-offset nnn: the exact sum, not masked to 12 bits (40_control_flow.md R69, the spec's decision D9). -/
def Obligations.JumpOffsetAddsV0 : Prop :=
  ∀ (nnn : Addr12) (s : State), ∃ t, exec (.jumpOffset nnn) s = .next t ∧
    t.pc.toNat = nnn.toNat + (s.V[0]).toNat ∧ t = { s with pc := t.pc }

/-- skip-eq-imm and skip-neq-imm (40_control_flow.md R65, R66); their words are general knowledge of the spec: log 8. -/
def Obligations.ImmediateSkips : Prop :=
  Selects 0xF000#16 0x3000#16 (fun w => .skipEqImm (xOf w) (kkOf w)) ∧
  Selects 0xF000#16 0x4000#16 (fun w => .skipNeqImm (xOf w) (kkOf w)) ∧
  ∀ (x : Reg) (kk : Byte) (s : State),
    exec (.skipEqImm x kk) s = .next { s with pc := if (s.V[x.val]).toNat = kk.toNat then s.pc + 4 else s.pc + 2 } ∧
    exec (.skipNeqImm x kk) s = .next { s with pc := if (s.V[x.val]).toNat = kk.toNat then s.pc + 2 else s.pc + 4 }

/-- skip-eq-reg and skip-neq-reg (40_control_flow.md R67, R68; the strict decoding is the spec's decision D16). -/
def Obligations.RegisterSkips : Prop :=
  ∀ (x y : Reg) (s : State),
    exec (.skipEqReg x y) s = .next { s with pc := if (s.V[x.val]).toNat = (s.V[y.val]).toNat then s.pc + 4 else s.pc + 2 } ∧
    exec (.skipNeqReg x y) s = .next { s with pc := if (s.V[x.val]).toNat = (s.V[y.val]).toNat then s.pc + 2 else s.pc + 4 }

/-! ### Arithmetic and logic -/

/-- load-imm, add-imm, load-reg (41_alu.md R72, R73, R74): one register and `pc`, no flag; the words of the last two are
general knowledge of the spec: log 8. -/
def Obligations.LoadsAndAddImmediate : Prop :=
  Selects 0xF000#16 0x6000#16 (fun w => .loadImm (xOf w) (kkOf w)) ∧ Selects 0xF000#16 0x7000#16 (fun w => .addImm (xOf w) (kkOf w)) ∧
  Selects 0xF00F#16 0x8000#16 (fun w => .loadReg (xOf w) (yOf w)) ∧
  ∀ (x y : Reg) (kk : Byte) (s : State),
    exec (.loadImm x kk) s = .next { s with V := s.V.set x.val kk, pc := s.pc + 2 } ∧
    exec (.addImm x kk) s =
      .next { s with V := s.V.set x.val (BitVec.ofNat 8 (((s.V[x.val]).toNat + kk.toNat) % 256)), pc := s.pc + 2 } ∧
    exec (.loadReg x y) s = .next { s with V := s.V.set x.val s.V[y.val], pc := s.pc + 2 }

/-- or, and, xor (41_alu.md R75, R76, R77), bit by bit: one register and `pc`, no flag; their words are general
knowledge of the spec: log 8. -/
def Obligations.BitwiseLogic : Prop :=
  Selects 0xF00F#16 0x8001#16 (fun w => .orReg (xOf w) (yOf w)) ∧ Selects 0xF00F#16 0x8002#16 (fun w => .andReg (xOf w) (yOf w)) ∧
  Selects 0xF00F#16 0x8003#16 (fun w => .xorReg (xOf w) (yOf w)) ∧
  ∀ (x y : Reg) (s : State),
    ∃ a b c : Byte,
      (∀ k, k < 8 → a.getLsbD k = ((s.V[x.val]).getLsbD k || (s.V[y.val]).getLsbD k) ∧
        b.getLsbD k = ((s.V[x.val]).getLsbD k && (s.V[y.val]).getLsbD k) ∧
        c.getLsbD k = ((s.V[x.val]).getLsbD k != (s.V[y.val]).getLsbD k)) ∧
      exec (.orReg x y) s = .next { s with V := s.V.set x.val a, pc := s.pc + 2 } ∧
      exec (.andReg x y) s = .next { s with V := s.V.set x.val b, pc := s.pc + 2 } ∧
      exec (.xorReg x y) s = .next { s with V := s.V.set x.val c, pc := s.pc + 2 }

/-- add-reg (41_alu.md R78, R70): the sum modulo 256 and its carry, from the operands before the instruction; with x = 15 the sum
overwrites the carry (R71, the spec's decision D17: log 13). -/
def Obligations.AddRegSumAndCarry : Prop :=
  ∀ (x y : Reg) (s : State), ∃ t, exec (.addReg x y) s = .next t ∧
    (t.V[x.val]).toNat = ((s.V[x.val]).toNat + (s.V[y.val]).toNat) % 256 ∧
    (x ≠ 15 → (t.V[15]).toNat = if (s.V[x.val]).toNat + (s.V[y.val]).toNat > 255 then 1 else 0) ∧
    (∀ j : Reg, j ≠ x → j ≠ 15 → t.V[j.val] = s.V[j.val]) ∧ t = { s with V := t.V, pc := s.pc + 2 }

/-- sub-reg and subn-reg (41_alu.md R79, R81, R70): the difference modulo 256 and the not-borrow flag, equal operands giving 1; with
x = 15 the difference overwrites the flag (R71, the spec's decision D17: log 13). -/
def Obligations.SubtractionsAndNotBorrow : Prop :=
  ∀ (x y : Reg) (s : State), ∃ t u, exec (.subReg x y) s = .next t ∧ exec (.subnReg x y) s = .next u ∧
    ((t.V[x.val]).toNat : Int) = ((s.V[x.val]).toNat - (s.V[y.val]).toNat : Int) % 256 ∧
    ((u.V[x.val]).toNat : Int) = ((s.V[y.val]).toNat - (s.V[x.val]).toNat : Int) % 256 ∧
    (x ≠ 15 → (t.V[15]).toNat = (if (s.V[x.val]).toNat ≥ (s.V[y.val]).toNat then 1 else 0) ∧
      (u.V[15]).toNat = (if (s.V[y.val]).toNat ≥ (s.V[x.val]).toNat then 1 else 0)) ∧
    (∀ j : Reg, j ≠ x → j ≠ 15 → t.V[j.val] = s.V[j.val] ∧ u.V[j.val] = s.V[j.val]) ∧
    t = { s with V := t.V, pc := s.pc + 2 } ∧ u = { s with V := u.V, pc := s.pc + 2 }

/-- shift-right and shift-left (41_alu.md R80, R82, R70): Vx by one bit, the bit shifted out in VF, Vy not read; with x = 15 the
result overwrites the flag (R71; the spec's decisions D16, D17: log 13, log 22). -/
def Obligations.ShiftsByOne : Prop :=
  ∀ (x y : Reg) (s : State), ∃ t u, exec (.shiftRight x y) s = .next t ∧ exec (.shiftLeft x y) s = .next u ∧
    (t.V[x.val]).toNat = (s.V[x.val]).toNat / 2 ∧ (u.V[x.val]).toNat = (s.V[x.val]).toNat * 2 % 256 ∧
    (x ≠ 15 → (t.V[15]).toNat = (s.V[x.val]).toNat % 2 ∧ (u.V[15]).toNat = (s.V[x.val]).toNat / 128) ∧
    (∀ j : Reg, j ≠ x → j ≠ 15 → t.V[j.val] = s.V[j.val] ∧ u.V[j.val] = s.V[j.val]) ∧
    t = { s with V := t.V, pc := s.pc + 2 } ∧ u = { s with V := u.V, pc := s.pc + 2 }

/-- random (41_alu.md R83): RND AND kk, for every RND; where the host's schedule gives the cycle's byte, RND is that byte
(30_encoding.md R59, the spec's decision D20; the schedule and the free value past its end are the model's own: log 2, log 3). -/
def Obligations.RandomMasksTheRandomByte : Prop :=
  (∀ (x : Reg) (kk : Byte) (s : State),
    exec (.random x kk) s = .next { s with V := s.V.set x.val (rnd s &&& kk), pc := s.pc + 2 }) ∧
  ∀ (s : State) (ops : List HostOp) (b : Byte) (rest : List CycleInput), s.env.inputs = ⟨ops, b⟩ :: rest → rnd s = b

/-! ### Index register and memory -/

/-- load-addr and font-addr (42_index_memory.md R85, R87): `I` is nnn, or the exact product of the whole register and 5; no flag.
Their words are general knowledge of the spec: log 8. -/
def Obligations.LoadAddrAndFontAddr : Prop :=
  Selects 0xF000#16 0xA000#16 (fun w => .loadAddr (nnnOf w)) ∧ Selects 0xF0FF#16 0xF029#16 (fun w => .fontAddr (xOf w)) ∧
  ∀ (nnn : Addr12) (x : Reg) (s : State), ∃ t u, exec (.loadAddr nnn) s = .next t ∧ exec (.fontAddr x) s = .next u ∧
    t.I.toNat = nnn.toNat ∧ t = { s with I := t.I, pc := s.pc + 2 } ∧
    u.I.toNat = (s.V[x.val]).toNat * 5 ∧ u = { s with I := u.I, pc := s.pc + 2 }

/-- add-addr (42_index_memory.md R86): a 16-bit add that wraps and writes no flag (the spec's decision D11: log 19). -/
def Obligations.AddAddrWraps : Prop :=
  ∀ (x : Reg) (s : State), ∃ t, exec (.addAddr x) s = .next t ∧
    t.I.toNat = (s.I.toNat + (s.V[x.val]).toNat) % 65536 ∧ t = { s with I := t.I, pc := s.pc + 2 }

/-- store-bcd (42_index_memory.md R88): the three decimal digits at I, I+1, I+2, every other byte as before, or AddressOutOfRange
with nothing written (the range check is the spec's decision D10: log 16). -/
def Obligations.StoreBcdStoresTheDigits : Prop :=
  ∀ (x : Reg) (s : State),
    (s.I.toNat + 2 < 4096 → ∃ t, exec (.storeBcd x) s = .next t ∧
      (memRead t s.I.toNat).toNat = (s.V[x.val]).toNat / 100 ∧
      (memRead t (s.I.toNat + 1)).toNat = (s.V[x.val]).toNat / 10 % 10 ∧
      (memRead t (s.I.toNat + 2)).toNat = (s.V[x.val]).toNat % 10 ∧
      (∀ a, a < s.I.toNat ∨ s.I.toNat + 2 < a → memRead t a = memRead s a) ∧
      t = { s with MEM := t.MEM, pc := s.pc + 2 }) ∧
    (4096 ≤ s.I.toNat + 2 → exec (.storeBcd x) s = .fault (.addressOutOfRange (max s.I.toNat 4096)))

/-- store-regs (42_index_memory.md R89): V0..Vx at I..I+x, every other byte as before, I unchanged, or AddressOutOfRange with nothing
written (the spec's decisions D10, D12: log 16, log 19). -/
def Obligations.StoreRegsStoresTheBlock : Prop :=
  ∀ (x : Reg) (s : State),
    (s.I.toNat + x.val < 4096 → ∃ t, exec (.storeRegs x) s = .next t ∧
      (∀ k : Reg, k ≤ x → memRead t (s.I.toNat + k.val) = s.V[k.val]) ∧
      (∀ a, a < s.I.toNat ∨ s.I.toNat + x.val < a → memRead t a = memRead s a) ∧
      t = { s with MEM := t.MEM, pc := s.pc + 2 }) ∧
    (4096 ≤ s.I.toNat + x.val → exec (.storeRegs x) s = .fault (.addressOutOfRange (max s.I.toNat 4096)))

/-- load-regs (42_index_memory.md R90): V0..Vx from I..I+x, every other register, I and all of memory as before, or AddressOutOfRange
with nothing written (the spec's decisions D10, D12: log 16, log 19). -/
def Obligations.LoadRegsLoadsTheBlock : Prop :=
  ∀ (x : Reg) (s : State),
    (s.I.toNat + x.val < 4096 → ∃ t, exec (.loadRegs x) s = .next t ∧
      (∀ k : Reg, k ≤ x → t.V[k.val] = memRead s (s.I.toNat + k.val)) ∧
      (∀ k : Reg, x < k → t.V[k.val] = s.V[k.val]) ∧ t = { s with V := t.V, pc := s.pc + 2 }) ∧
    (4096 ≤ s.I.toNat + x.val → exec (.loadRegs x) s = .fault (.addressOutOfRange (max s.I.toNat 4096)))

/-- Registers stored by store-regs come back by load-regs from any state with the same memory, I and parameters
(42_index_memory.md R89, R90, 20_memory.md R43). -/
def Obligations.StoredRegistersLoadBack : Prop :=
  ∀ (x : Reg) (s t u : State), exec (.storeRegs x) s = .next t → u.MEM = t.MEM → u.I = t.I → u.params = t.params →
    ∃ v, exec (.loadRegs x) u = .next v ∧ ∀ k : Reg, k ≤ x → v.V[k.val] = s.V[k.val]

/-- A word stored at the next `pc` is the word that the next cycle fetches: no stale fetch (20_memory.md R45, 70_reset_and_hazards.md
R130, the spec's decision D27: log 20). -/
def Obligations.StoredWordIsFetchedNext : Prop :=
  ∀ (x : Reg) (s t : State), 1 ≤ x.val → s.I.toNat = s.pc.toNat + 2 → exec (.storeRegs x) s = .next t →
    (wordAtPc t).toNat = (s.V[0]).toNat * 256 + (s.V[1]).toNat

/-! ### Display -/

/-- clear-screen (43_display.md R94): every pixel 0, whatever it was, `pc + 2`, and nothing else; its word is general knowledge of
the spec: log 8. -/
def Obligations.ClearScreenClearsEveryPixel : Prop :=
  Selects 0xFFFF#16 0x00E0#16 (fun _ => .clearScreen) ∧
  ∀ s : State, ∃ t, exec .clearScreen s = .next t ∧
    (∀ (r : Fin 32) (c : Fin 64), t.DISP[r.val][c.val] = false) ∧ t = { s with DISP := t.DISP, pc := s.pc + 2 }

/-- draw (43_display.md R91, R92, R93, R95): every pixel under a 1 bit of the sprite is inverted and no other, VF is 1 exactly when
one of them was 1, every other register and all of memory stay; n = 0 reads nothing, makes no range check and writes VF = 0; a sprite
that reaches past memory raises AddressOutOfRange with nothing drawn. (The bit order is the spec's decision D18, the range check D10:
log 9, log 16.) -/
def Obligations.DrawInvertsThePixelsUnderTheSprite : Prop :=
  ∀ (x y : Reg) (n : Nat) (s : State), (Instr.draw x y n).wellFormed = true →
    (n = 0 ∨ s.I.toNat + n - 1 < 4096 → ∃ t, exec (.draw x y n) s = .next t ∧
      (∀ (R : Fin 32) (C : Fin 64), UnderSprite s x y n R C → t.DISP[R.val][C.val] = !s.DISP[R.val][C.val]) ∧
      (∀ (R : Fin 32) (C : Fin 64), ¬ UnderSprite s x y n R C → t.DISP[R.val][C.val] = s.DISP[R.val][C.val]) ∧
      (t.V[15] = 1 ↔ ∃ R C, UnderSprite s x y n R C ∧ s.DISP[R.val][C.val] = true) ∧ (t.V[15] = 0 ∨ t.V[15] = 1) ∧
      (∀ j : Reg, j ≠ 15 → t.V[j.val] = s.V[j.val]) ∧ t = { s with DISP := t.DISP, V := t.V, pc := s.pc + 2 }) ∧
    (0 < n → 4096 ≤ s.I.toNat + n - 1 → exec (.draw x y n) s = .fault (.addressOutOfRange (max s.I.toNat 4096)))

/-- "Sprite draw is self-erasing": the same sprite drawn again at the same place, from any later state with the display as the first
draw left it, restores every pixel, and VF is "computed from the second draw's collisions": 1 exactly when some pixel under a 1 bit
was 0 before the first draw (43_display.md R95's pseudocode, 95_test_vectors.md S10). R95's sentence that VF is 1 "iff the sprite
has at least one 1 bit" is the last clause: it needs those pixels 0 before the first draw (log 28). -/
def Obligations.DrawingTwiceRestoresTheDisplay : Prop :=
  ∀ (x y : Reg) (n : Nat) (s t u : State), (Instr.draw x y n).wellFormed = true → exec (.draw x y n) s = .next t →
    u.DISP = t.DISP → u.MEM = t.MEM → u.params = t.params → u.I = t.I → u.V[x.val] = s.V[x.val] → u.V[y.val] = s.V[y.val] →
    ∃ v, exec (.draw x y n) u = .next v ∧ v.DISP = s.DISP ∧
      (v.V[15] = 1 ↔ ∃ R C, UnderSprite s x y n R C ∧ s.DISP[R.val][C.val] = false) ∧
      ((∀ R C, UnderSprite s x y n R C → s.DISP[R.val][C.val] = false) →
        (v.V[15] = 1 ↔ ∃ r c, r < n ∧ c < 8 ∧ (memRead s (s.I.toNat + r)).getLsbD (7 - c) = true))

/-! ### Keys and timers -/

/-- skip-key-pressed and skip-key-not-pressed (44_timer_input.md R96, R99, R100): the level of key V[x]; with V[x] >= 16 what
KEY_INDEX_POLICY says (the spec's decision D13). -/
def Obligations.KeySkipsReadTheLevel : Prop :=
  ∀ (x : Reg) (s : State),
    (∀ p : Bool,
      ((s.V[x.val]).toNat < 16 ∧ p = s.KEYS.getLsbD (s.V[x.val]).toNat) ∨
      (16 ≤ (s.V[x.val]).toNat ∧ s.params.keyIndexPolicy = .maskLowNibble ∧ p = s.KEYS.getLsbD ((s.V[x.val]).toNat % 16)) ∨
      (16 ≤ (s.V[x.val]).toNat ∧ s.params.keyIndexPolicy = .notPressed ∧ p = false) →
      exec (.skipKeyPressed x) s = .next { s with pc := if p then s.pc + 4 else s.pc + 2 } ∧
      exec (.skipKeyNotPressed x) s = .next { s with pc := if p then s.pc + 2 else s.pc + 4 }) ∧
    (16 ≤ (s.V[x.val]).toNat → s.params.keyIndexPolicy = .fault →
      exec (.skipKeyPressed x) s = .fault (.keyIndexOutOfRange s.V[x.val]) ∧
      exec (.skipKeyNotPressed x) s = .fault (.keyIndexOutOfRange s.V[x.val]))

/-- load-delay and set-delay (44_timer_input.md R101, R103): DT and V[x], no flag; when the timers tick around them is
CoupledModeTicksOncePerRunningCycle (the spec's decision D2: log 15). -/
def Obligations.DelayTimerMoves : Prop :=
  ∀ (x : Reg) (s : State),
    exec (.loadDelay x) s = .next { s with V := s.V.set x.val s.DT, pc := s.pc + 2 } ∧
    exec (.setDelay x) s = .next { s with DT := s.V[x.val], pc := s.pc + 2 }

/-- set-sound (44_timer_input.md R104): ST becomes V[x], so the output is V[x] at once, and no instruction reads ST back; its words
are general knowledge of the spec: log 8. -/
def Obligations.SetSoundWritesTheSoundTimer : Prop :=
  Selects 0xF0FF#16 0xF018#16 (fun w => .setSound (xOf w)) ∧
  (∀ (x : Reg) (s : State), ∃ t, exec (.setSound x) s = .next t ∧ t = { s with ST := s.V[x.val], pc := s.pc + 2 } ∧
    (sound t).1 = s.V[x.val] ∧ ((sound t).2 = true ↔ (s.V[x.val]).toNat ≠ 0)) ∧
  ∀ (i : Instr) (s : State) (v : Byte), (∀ x, i ≠ .setSound x) →
    exec i { s with ST := v } = mapNext (fun t => { t with ST := v }) (exec i s)

/-- The sound output is the sound timer's current value, and it sounds exactly when that is not zero (60_exceptions.md R121). -/
def Obligations.SoundOutputIsTheSoundTimer : Prop :=
  ∀ s : State, (sound s).1 = s.ST ∧ ((sound s).2 = true ↔ s.ST.toNat ≠ 0)

/-- wait-key (44_timer_input.md R102): RUN becomes AwaitingKey(x) and `pc` advances here; V[x] is not written (the spec's decisions
D14, D15: log 26). -/
def Obligations.WaitKeyEntersTheWait : Prop :=
  (∀ (x : Reg) (s : State), exec (.waitKey x) s = .next { s with RUN := .awaitingKey x, pc := s.pc + 2 }) ∧
  ∀ (s t : State) (x : Reg), cycle s = .next t → s.RUN = .running → decode (wordAtPc s) = .instr (.waitKey x) →
    t.RUN = .awaitingKey x ∧ ∀ k, ¬ Edge t k

/-! ### The whole machine -/

/-- Which instructions may write which state other than `pc` and the general registers: SP and STACK by call and return, I by
load-addr, add-addr, font-addr, DT by set-delay, ST by set-sound, RUN by wait-key, DISP by clear-screen and draw, MEM by store-bcd and
store-regs, and KEYS, KEY_PREV, the parameters and the environment by none (10_state.md R17, R21 to R27, 43_display.md R91,
20_memory.md R40). -/
def Obligations.OnlyTheNamedInstructionsWriteEachState : Prop :=
  ∀ (i : Instr) (s t : State), exec i s = .next t →
    (t.SP = s.SP ∧ t.STACK = s.STACK ∨ i = .ret ∨ ∃ nnn, i = .call nnn) ∧
    (t.I = s.I ∨ (∃ nnn, i = .loadAddr nnn) ∨ ∃ x, i = .addAddr x ∨ i = .fontAddr x) ∧
    (t.DT = s.DT ∨ ∃ x, i = .setDelay x) ∧ (t.ST = s.ST ∨ ∃ x, i = .setSound x) ∧
    (t.RUN = s.RUN ∨ ∃ x, i = .waitKey x) ∧
    (t.DISP = s.DISP ∨ i = .clearScreen ∨ ∃ x y n, i = .draw x y n) ∧
    (t.MEM = s.MEM ∨ ∃ x, i = .storeBcd x ∨ i = .storeRegs x) ∧
    t.KEYS = s.KEYS ∧ t.KEY_PREV = s.KEY_PREV ∧ t.params = s.params ∧ t.env = s.env

/-- Which general registers an instruction may change: its destination, VF for the five flag-writing arithmetic instructions and
draw, V0..Vx for load-regs; so no other instruction writes VF unless its x field is 15 (10_state.md R15). -/
def Obligations.GeneralRegisterFrame : Prop :=
  ∀ (i : Instr) (s t : State) (j : Reg), exec i s = .next t →
    t.V[j.val] = s.V[j.val] ∨
    match i with
    | .loadImm x _ | .addImm x _ | .random x _ | .loadReg x _ | .orReg x _ | .andReg x _ | .xorReg x _ | .loadDelay x => j = x
    | .addReg x _ | .subReg x _ | .shiftRight x _ | .subnReg x _ | .shiftLeft x _ => j = x ∨ j = 15
    | .draw _ _ _ => j = 15
    | .loadRegs x => j ≤ x
    | _ => False

/-- Where `pc` goes, for every instruction (10_state.md R19; that wait-key advances at entry is the spec's decision D15: log 26). -/
def Obligations.ProgramCounterOfEveryInstruction : Prop :=
  ∀ (i : Instr) (s t : State), exec i s = .next t →
    match i with
    | .jump nnn | .call nnn => t.pc.toNat = nnn.toNat
    | .jumpOffset nnn => t.pc.toNat = nnn.toNat + (s.V[0]).toNat
    | .ret => ∃ j : Fin 16, s.SP.val = j.val + 1 ∧ t.pc = s.STACK[j.val]
    | .skipEqImm x kk => t.pc = if s.V[x.val] = kk then s.pc + 4 else s.pc + 2
    | .skipNeqImm x kk => t.pc = if s.V[x.val] = kk then s.pc + 2 else s.pc + 4
    | .skipEqReg x y => t.pc = if s.V[x.val] = s.V[y.val] then s.pc + 4 else s.pc + 2
    | .skipNeqReg x y => t.pc = if s.V[x.val] = s.V[y.val] then s.pc + 2 else s.pc + 4
    | .skipKeyPressed _ | .skipKeyNotPressed _ => t.pc = s.pc + 4 ∨ t.pc = s.pc + 2
    | _ => t.pc = s.pc + 2

/-- Only random reads RND, no instruction reads KEY_PREV, and only load-delay reads DT: any other instruction does the same whatever
they are (30_encoding.md R59, 10_state.md R25, R23). -/
def Obligations.HiddenInputsReachOnlyTheirReaders : Prop :=
  ∀ (i : Instr) (s : State),
    (∀ k : Word, exec i { s with KEY_PREV := k } = mapNext (fun t => { t with KEY_PREV := k }) (exec i s)) ∧
    ((∀ x kk, i ≠ .random x kk) → ∀ e : Env, exec i { s with env := e } = mapNext (fun t => { t with env := e }) (exec i s)) ∧
    ((∀ x, i ≠ .loadDelay x ∧ i ≠ .setDelay x) → ∀ v : Byte,
      exec i { s with DT := v } = mapNext (fun t => { t with DT := v }) (exec i s))

/-! ### Invariants -/

/-- A step keeps the invariant: the memory's canonical form, `pc <= 0x10FE` (10_state.md R20), and no stacked return address over
0x1000 (92_eei_decisions.md D7), from every state that has it and whatever the host does in the gap. -/
def Obligations.StepKeepsTheInvariant : Prop :=
  ∀ s t : State, s.Inv → step s = .next t → t.Inv

/-- The reset state has the invariant, for every value of the parameters (10_state.md R29). -/
def Obligations.ConstructedStateHasTheInvariant : Prop :=
  ∀ p : Params, (State.construct p).Inv

/-- A memory in canonical form is determined by the bytes that MemRead gives (20_memory.md R30, R31; the representation is the
model's own: log 21). -/
def Obligations.CanonicalMemoryIsDeterminedByItsBytes : Prop :=
  ∀ (font : Vector Byte 80) (m m' : Memory), Memory.wf font m → Memory.wf font m' →
    (∀ a, a < 4096 → Memory.read font m a = Memory.read font m' a) → m = m'
end

