-- ==== Sys2Proof/Laws/Decode.lean ====
section
/-! SUPPORT. An opcode word is four nibbles (30_encoding.md R46, R48): its fields, its masking, its equality and the encoder's
formats are read nibble by nibble. -/

namespace Sys2Proof

/-- The word with the nibbles `c x y n`, from the top (R48). -/
def nibbles (c x y n : BitVec 4) : Word := (c ++ x : Byte) ++ (y ++ n : Byte)

theorem getLsbD_byte (a b : BitVec 4) (i : Nat) :
    BitVec.getLsbD (a ++ b : Byte) i = if i < 4 then b.getLsbD i else a.getLsbD (i - 4) := by
  refine (BitVec.getLsbD_append (x := a) (y := b)).trans ?_
  split <;> rfl

/-- Which bit of which nibble a bit of the word is. -/
theorem getLsbD_nibbles (c x y n : BitVec 4) (i : Nat) :
    (nibbles c x y n).getLsbD i =
      if i < 4 then n.getLsbD i else if i < 8 then y.getLsbD (i - 4)
      else if i < 12 then x.getLsbD (i - 8) else c.getLsbD (i - 12) := by
  refine (BitVec.getLsbD_append (x := (c ++ x : Byte)) (y := (y ++ n : Byte))).trans ?_
  rw [getLsbD_byte, getLsbD_byte]
  by_cases h4 : i < 4
  · have : i < 8 := by omega
    simp [h4, this]
  · by_cases h8 : i < 8
    · simp [h4, h8]
    · by_cases h12 : i < 12
      · have : i - 8 < 4 := by omega
        simp [h4, h8, h12, this]
      · have : ¬ i - 8 < 4 := by omega
        have : i - 8 - 4 = i - 12 := by omega
        simp [*]

@[simp] theorem fieldC_nibbles (c x y n : BitVec 4) : fieldC (nibbles c x y n) = c := by
  apply BitVec.eq_of_getLsbD_eq; intro i hi
  have h1 : ¬ 12 + i < 4 := by omega
  have h2 : ¬ 12 + i < 8 := by omega
  simp [fieldC, getLsbD_nibbles, hi, h1, h2]

@[simp] theorem fieldX_nibbles (c x y n : BitVec 4) : fieldX (nibbles c x y n) = x.toFin := by
  refine congrArg BitVec.toFin (BitVec.eq_of_getLsbD_eq fun i hi => ?_)
  have h1 : ¬ 8 + i < 4 := by omega
  have h2 : 8 + i < 12 := by omega
  simp [getLsbD_nibbles, hi, h1, h2]

@[simp] theorem fieldY_nibbles (c x y n : BitVec 4) : fieldY (nibbles c x y n) = y.toFin := by
  refine congrArg BitVec.toFin (BitVec.eq_of_getLsbD_eq fun i hi => ?_)
  have h1 : 4 + i < 8 := by omega
  simp [getLsbD_nibbles, hi, h1]

@[simp] theorem fieldN_nibbles (c x y n : BitVec 4) : fieldN (nibbles c x y n) = n := by
  apply BitVec.eq_of_getLsbD_eq; intro i hi
  simp [fieldN, getLsbD_nibbles, hi]

@[simp] theorem fieldKK_nibbles (c x y n : BitVec 4) : fieldKK (nibbles c x y n) = (y ++ n : Byte) := by
  apply BitVec.eq_of_getLsbD_eq; intro i hi
  rw [getLsbD_byte]
  simp [fieldKK, getLsbD_nibbles, hi]

/-- Every word is four nibbles. -/
theorem exists_nibbles (w : Word) : ∃ c x y n, w = nibbles c x y n := by
  refine ⟨w.extractLsb' 12 4, w.extractLsb' 8 4, w.extractLsb' 4 4, w.extractLsb' 0 4, ?_⟩
  apply BitVec.eq_of_getLsbD_eq
  intro i hi
  rw [getLsbD_nibbles]
  simp only [BitVec.getLsbD_extractLsb']
  by_cases h4 : i < 4
  · simp [h4]
  · by_cases h8 : i < 8
    · have h1 : i - 4 < 4 := by omega
      have h2 : 4 + (i - 4) = i := by omega
      simp [h4, h8, h1, h2]
    · by_cases h12 : i < 12
      · have h1 : i - 8 < 4 := by omega
        have h2 : 8 + (i - 8) = i := by omega
        simp [h4, h8, h12, h1, h2]
      · have h1 : i - 12 < 4 := by omega
        have h2 : 12 + (i - 12) = i := by omega
        simp [h4, h8, h12, h1, h2]

/-- Masking works nibble by nibble. -/
theorem nibbles_and (c x y n c' x' y' n' : BitVec 4) :
    nibbles c x y n &&& nibbles c' x' y' n' = nibbles (c &&& c') (x &&& x') (y &&& y') (n &&& n') := by
  apply BitVec.eq_of_getLsbD_eq
  intro i hi
  simp only [BitVec.getLsbD_and, getLsbD_nibbles]
  split
  · rfl
  · split
    · rfl
    · split <;> rfl

/-- Two words are equal when their nibbles are. -/
theorem nibbles_eq_iff {c x y n c' x' y' n' : BitVec 4} :
    nibbles c x y n = nibbles c' x' y' n' ↔ c = c' ∧ x = x' ∧ y = y' ∧ n = n' := by
  refine ⟨fun h => ⟨?_, ?_, ?_, ?_⟩, by rintro ⟨rfl, rfl, rfl, rfl⟩; rfl⟩
  · simpa using congrArg fieldC h
  · exact BitVec.toFin_inj.1 (by simpa using congrArg fieldX h)
  · exact BitVec.toFin_inj.1 (by simpa using congrArg fieldY h)
  · simpa using congrArg fieldN h

theorem and_15 (c : BitVec 4) : c &&& 15#4 = c := by revert c; decide

/-- The mask of a row that fixes the class only (formats NNN, XKK, XYN). -/
theorem nibbles_and_F000 (c x y n : BitVec 4) : nibbles c x y n &&& 0xF000#16 = nibbles c 0 0 0 := by
  rw [show (0xF000#16 : Word) = nibbles 15#4 0 0 0 from by decide, nibbles_and]; simp [and_15]

/-- The mask of a row that fixes the class and the low nibble (format XYS). -/
theorem nibbles_and_F00F (c x y n : BitVec 4) : nibbles c x y n &&& 0xF00F#16 = nibbles c 0 0 n := by
  rw [show (0xF00F#16 : Word) = nibbles 15#4 0 0 15#4 from by decide, nibbles_and]; simp [and_15]

/-- The mask of a row that fixes the class and the low byte (format XSS). -/
theorem nibbles_and_F0FF (c x y n : BitVec 4) : nibbles c x y n &&& 0xF0FF#16 = nibbles c 0 y n := by
  rw [show (0xF0FF#16 : Word) = nibbles 15#4 0 15#4 15#4 from by decide,
    nibbles_and]; simp [and_15]

/-! ### The encoder's formats as nibbles -/

theorem encodeXYN_eq (c : BitVec 4) (x y : Reg) (n : BitVec 4) :
    encodeXYN c x y n = nibbles c (BitVec.ofFin (w := 4) x) (BitVec.ofFin (w := 4) y) n := rfl

theorem encodeXKK_eq (c : BitVec 4) (x : Reg) (kk : Byte) :
    encodeXKK c x kk = nibbles c (BitVec.ofFin (w := 4) x) (kk.extractLsb' 4 4) (kk.extractLsb' 0 4) := by
  have h : (kk.extractLsb' 4 4 ++ kk.extractLsb' 0 4 : Byte) = kk := by
    apply BitVec.eq_of_getLsbD_eq; intro i hi
    rw [getLsbD_byte]
    by_cases h4 : i < 4
    · simp [h4]
    · have h1 : i - 4 < 4 := by omega
      have h2 : 4 + (i - 4) = i := by omega
      simp [h4, h1, h2]
  rw [nibbles, h]; rfl

theorem encodeNNN_eq (c : BitVec 4) (nnn : Addr12) :
    encodeNNN c nnn = nibbles c (nnn.extractLsb' 8 4) (nnn.extractLsb' 4 4) (nnn.extractLsb' 0 4) := by
  apply BitVec.eq_of_getLsbD_eq; intro i hi
  refine (BitVec.getLsbD_append (x := c) (y := nnn)).trans ?_
  rw [getLsbD_nibbles]
  by_cases h4 : i < 4
  · have : i < 12 := by omega
    simp [h4, this]
  · by_cases h8 : i < 8
    · have h1 : i - 4 < 4 := by omega
      have h2 : 4 + (i - 4) = i := by omega
      have : i < 12 := by omega
      simp [h4, h8, h1, h2, this]
    · by_cases h12 : i < 12
      · have h1 : i - 8 < 4 := by omega
        have h2 : 8 + (i - 8) = i := by omega
        simp [h4, h8, h12, h1, h2]
      · simp [h4, h8, h12]

/-! ### The fields of an encoded word -/

@[simp] theorem fieldC_encodeNNN (c : BitVec 4) (nnn : Addr12) : fieldC (encodeNNN c nnn) = c := by simp [encodeNNN_eq]
@[simp] theorem fieldC_encodeXKK (c : BitVec 4) (x : Reg) (kk : Byte) : fieldC (encodeXKK c x kk) = c := by simp [encodeXKK_eq]
@[simp] theorem fieldC_encodeXYN (c : BitVec 4) (x y : Reg) (n : BitVec 4) : fieldC (encodeXYN c x y n) = c := by
  simp [encodeXYN_eq]
@[simp] theorem fieldX_encodeXKK (c : BitVec 4) (x : Reg) (kk : Byte) : fieldX (encodeXKK c x kk) = x := by simp [encodeXKK_eq]
@[simp] theorem fieldX_encodeXYN (c : BitVec 4) (x y : Reg) (n : BitVec 4) : fieldX (encodeXYN c x y n) = x := by
  simp [encodeXYN_eq]
@[simp] theorem fieldY_encodeXYN (c : BitVec 4) (x y : Reg) (n : BitVec 4) : fieldY (encodeXYN c x y n) = y := by
  simp [encodeXYN_eq]
@[simp] theorem fieldN_encodeXYN (c : BitVec 4) (x y : Reg) (n : BitVec 4) : fieldN (encodeXYN c x y n) = n := by
  simp [encodeXYN_eq]

@[simp] theorem fieldKK_encodeXKK (c : BitVec 4) (x : Reg) (kk : Byte) : fieldKK (encodeXKK c x kk) = kk := by
  apply BitVec.eq_of_getLsbD_eq; intro i hi
  rw [fieldKK, BitVec.getLsbD_extractLsb', encodeXKK,
    BitVec.getLsbD_append (x := (c ++ BitVec.ofFin (w := 4) x : Byte)) (y := kk)]
  simp [hi]

@[simp] theorem fieldNNN_encodeNNN (c : BitVec 4) (nnn : Addr12) : fieldNNN (encodeNNN c nnn) = nnn := by
  apply BitVec.eq_of_getLsbD_eq; intro i hi
  rw [fieldNNN, BitVec.getLsbD_extractLsb', encodeNNN, BitVec.getLsbD_append (x := c) (y := nnn)]
  simp [hi]

/-- The first byte of a word counts 256 times (20_memory.md R38). -/
theorem wordOfBytes_eq_ofNat (hi lo : Byte) : wordOfBytes hi lo = BitVec.ofNat 16 (hi.toNat * 256 + lo.toNat) := by
  apply BitVec.eq_of_toNat_eq
  have h1 := hi.isLt
  have h2 := lo.isLt
  rw [wordOfBytes, BitVec.toNat_append, ← Nat.shiftLeft_add_eq_or_of_lt h2, Nat.shiftLeft_eq, BitVec.toNat_ofNat]
  omega

/-- The two bytes of a word, as memory holds them, give the word back (20_memory.md R38). -/
theorem wordOfBytes_hiByte_loByte (w : Word) : wordOfBytes (hiByte w) (loByte w) = w := by
  apply BitVec.eq_of_getLsbD_eq; intro i hi
  refine (BitVec.getLsbD_append (x := hiByte w) (y := loByte w)).trans ?_
  by_cases h : i < 8
  · simp [loByte, h]
  · have h1 : i - 8 < 8 := by omega
    have h2 : 8 + (i - 8) = i := by omega
    simp [hiByte, h, h1, h2]

end Sys2Proof
end

