-- ==== Sys2Proof/Laws/State.lean ====
section
/-! SUPPORT. What each named update of the state does to each field: true by rfl, so that no later proof unfolds a record update. -/

namespace Sys2Proof.Machine

/-! ### setV -/

section

variable (s : State) (x : Reg) (v : Byte)

@[simp] theorem setV_V : (setV x v s).V = s.V.set x.val v := rfl
@[simp] theorem setV_I : (setV x v s).I = s.I := rfl
@[simp] theorem setV_pc : (setV x v s).pc = s.pc := rfl
@[simp] theorem setV_SP : (setV x v s).SP = s.SP := rfl
@[simp] theorem setV_STACK : (setV x v s).STACK = s.STACK := rfl
@[simp] theorem setV_DT : (setV x v s).DT = s.DT := rfl
@[simp] theorem setV_ST : (setV x v s).ST = s.ST := rfl
@[simp] theorem setV_KEYS : (setV x v s).KEYS = s.KEYS := rfl
@[simp] theorem setV_KEY_PREV : (setV x v s).KEY_PREV = s.KEY_PREV := rfl
@[simp] theorem setV_RUN : (setV x v s).RUN = s.RUN := rfl
@[simp] theorem setV_DISP : (setV x v s).DISP = s.DISP := rfl
@[simp] theorem setV_MEM : (setV x v s).MEM = s.MEM := rfl
@[simp] theorem setV_params : (setV x v s).params = s.params := rfl
@[simp] theorem setV_env : (setV x v s).env = s.env := rfl

end

/-! ### setI -/

section

variable (s : State) (v : Word)

@[simp] theorem setI_V : (setI v s).V = s.V := rfl
@[simp] theorem setI_I : (setI v s).I = v := rfl
@[simp] theorem setI_pc : (setI v s).pc = s.pc := rfl
@[simp] theorem setI_SP : (setI v s).SP = s.SP := rfl
@[simp] theorem setI_STACK : (setI v s).STACK = s.STACK := rfl
@[simp] theorem setI_DT : (setI v s).DT = s.DT := rfl
@[simp] theorem setI_ST : (setI v s).ST = s.ST := rfl
@[simp] theorem setI_KEYS : (setI v s).KEYS = s.KEYS := rfl
@[simp] theorem setI_KEY_PREV : (setI v s).KEY_PREV = s.KEY_PREV := rfl
@[simp] theorem setI_RUN : (setI v s).RUN = s.RUN := rfl
@[simp] theorem setI_DISP : (setI v s).DISP = s.DISP := rfl
@[simp] theorem setI_MEM : (setI v s).MEM = s.MEM := rfl
@[simp] theorem setI_params : (setI v s).params = s.params := rfl
@[simp] theorem setI_env : (setI v s).env = s.env := rfl

end

/-! ### setDT -/

section

variable (s : State) (v : Byte)

@[simp] theorem setDT_V : (setDT v s).V = s.V := rfl
@[simp] theorem setDT_I : (setDT v s).I = s.I := rfl
@[simp] theorem setDT_pc : (setDT v s).pc = s.pc := rfl
@[simp] theorem setDT_SP : (setDT v s).SP = s.SP := rfl
@[simp] theorem setDT_STACK : (setDT v s).STACK = s.STACK := rfl
@[simp] theorem setDT_DT : (setDT v s).DT = v := rfl
@[simp] theorem setDT_ST : (setDT v s).ST = s.ST := rfl
@[simp] theorem setDT_KEYS : (setDT v s).KEYS = s.KEYS := rfl
@[simp] theorem setDT_KEY_PREV : (setDT v s).KEY_PREV = s.KEY_PREV := rfl
@[simp] theorem setDT_RUN : (setDT v s).RUN = s.RUN := rfl
@[simp] theorem setDT_DISP : (setDT v s).DISP = s.DISP := rfl
@[simp] theorem setDT_MEM : (setDT v s).MEM = s.MEM := rfl
@[simp] theorem setDT_params : (setDT v s).params = s.params := rfl
@[simp] theorem setDT_env : (setDT v s).env = s.env := rfl

end

/-! ### setST -/

section

variable (s : State) (v : Byte)

@[simp] theorem setST_V : (setST v s).V = s.V := rfl
@[simp] theorem setST_I : (setST v s).I = s.I := rfl
@[simp] theorem setST_pc : (setST v s).pc = s.pc := rfl
@[simp] theorem setST_SP : (setST v s).SP = s.SP := rfl
@[simp] theorem setST_STACK : (setST v s).STACK = s.STACK := rfl
@[simp] theorem setST_DT : (setST v s).DT = s.DT := rfl
@[simp] theorem setST_ST : (setST v s).ST = v := rfl
@[simp] theorem setST_KEYS : (setST v s).KEYS = s.KEYS := rfl
@[simp] theorem setST_KEY_PREV : (setST v s).KEY_PREV = s.KEY_PREV := rfl
@[simp] theorem setST_RUN : (setST v s).RUN = s.RUN := rfl
@[simp] theorem setST_DISP : (setST v s).DISP = s.DISP := rfl
@[simp] theorem setST_MEM : (setST v s).MEM = s.MEM := rfl
@[simp] theorem setST_params : (setST v s).params = s.params := rfl
@[simp] theorem setST_env : (setST v s).env = s.env := rfl

end

/-! ### setRUN -/

section

variable (s : State) (r : Run)

@[simp] theorem setRUN_V : (setRUN r s).V = s.V := rfl
@[simp] theorem setRUN_I : (setRUN r s).I = s.I := rfl
@[simp] theorem setRUN_pc : (setRUN r s).pc = s.pc := rfl
@[simp] theorem setRUN_SP : (setRUN r s).SP = s.SP := rfl
@[simp] theorem setRUN_STACK : (setRUN r s).STACK = s.STACK := rfl
@[simp] theorem setRUN_DT : (setRUN r s).DT = s.DT := rfl
@[simp] theorem setRUN_ST : (setRUN r s).ST = s.ST := rfl
@[simp] theorem setRUN_KEYS : (setRUN r s).KEYS = s.KEYS := rfl
@[simp] theorem setRUN_KEY_PREV : (setRUN r s).KEY_PREV = s.KEY_PREV := rfl
@[simp] theorem setRUN_RUN : (setRUN r s).RUN = r := rfl
@[simp] theorem setRUN_DISP : (setRUN r s).DISP = s.DISP := rfl
@[simp] theorem setRUN_MEM : (setRUN r s).MEM = s.MEM := rfl
@[simp] theorem setRUN_params : (setRUN r s).params = s.params := rfl
@[simp] theorem setRUN_env : (setRUN r s).env = s.env := rfl

end

/-! ### setDISP -/

section

variable (s : State) (d : Display)

@[simp] theorem setDISP_V : (setDISP d s).V = s.V := rfl
@[simp] theorem setDISP_I : (setDISP d s).I = s.I := rfl
@[simp] theorem setDISP_pc : (setDISP d s).pc = s.pc := rfl
@[simp] theorem setDISP_SP : (setDISP d s).SP = s.SP := rfl
@[simp] theorem setDISP_STACK : (setDISP d s).STACK = s.STACK := rfl
@[simp] theorem setDISP_DT : (setDISP d s).DT = s.DT := rfl
@[simp] theorem setDISP_ST : (setDISP d s).ST = s.ST := rfl
@[simp] theorem setDISP_KEYS : (setDISP d s).KEYS = s.KEYS := rfl
@[simp] theorem setDISP_KEY_PREV : (setDISP d s).KEY_PREV = s.KEY_PREV := rfl
@[simp] theorem setDISP_RUN : (setDISP d s).RUN = s.RUN := rfl
@[simp] theorem setDISP_DISP : (setDISP d s).DISP = d := rfl
@[simp] theorem setDISP_MEM : (setDISP d s).MEM = s.MEM := rfl
@[simp] theorem setDISP_params : (setDISP d s).params = s.params := rfl
@[simp] theorem setDISP_env : (setDISP d s).env = s.env := rfl

end

/-! ### setPc -/

section

variable (s : State) (a : Word)

@[simp] theorem setPc_V : (setPc a s).V = s.V := rfl
@[simp] theorem setPc_I : (setPc a s).I = s.I := rfl
@[simp] theorem setPc_pc : (setPc a s).pc = a := rfl
@[simp] theorem setPc_SP : (setPc a s).SP = s.SP := rfl
@[simp] theorem setPc_STACK : (setPc a s).STACK = s.STACK := rfl
@[simp] theorem setPc_DT : (setPc a s).DT = s.DT := rfl
@[simp] theorem setPc_ST : (setPc a s).ST = s.ST := rfl
@[simp] theorem setPc_KEYS : (setPc a s).KEYS = s.KEYS := rfl
@[simp] theorem setPc_KEY_PREV : (setPc a s).KEY_PREV = s.KEY_PREV := rfl
@[simp] theorem setPc_RUN : (setPc a s).RUN = s.RUN := rfl
@[simp] theorem setPc_DISP : (setPc a s).DISP = s.DISP := rfl
@[simp] theorem setPc_MEM : (setPc a s).MEM = s.MEM := rfl
@[simp] theorem setPc_params : (setPc a s).params = s.params := rfl
@[simp] theorem setPc_env : (setPc a s).env = s.env := rfl

end

/-! ### advance -/

section

variable (s : State)

@[simp] theorem advance_V : (advance s).V = s.V := rfl
@[simp] theorem advance_I : (advance s).I = s.I := rfl
@[simp] theorem advance_pc : (advance s).pc = s.pc + 2 := rfl
@[simp] theorem advance_SP : (advance s).SP = s.SP := rfl
@[simp] theorem advance_STACK : (advance s).STACK = s.STACK := rfl
@[simp] theorem advance_DT : (advance s).DT = s.DT := rfl
@[simp] theorem advance_ST : (advance s).ST = s.ST := rfl
@[simp] theorem advance_KEYS : (advance s).KEYS = s.KEYS := rfl
@[simp] theorem advance_KEY_PREV : (advance s).KEY_PREV = s.KEY_PREV := rfl
@[simp] theorem advance_RUN : (advance s).RUN = s.RUN := rfl
@[simp] theorem advance_DISP : (advance s).DISP = s.DISP := rfl
@[simp] theorem advance_MEM : (advance s).MEM = s.MEM := rfl
@[simp] theorem advance_params : (advance s).params = s.params := rfl
@[simp] theorem advance_env : (advance s).env = s.env := rfl

end

/-! ### skipIf -/

section

variable (s : State) (c : Bool)

@[simp] theorem skipIf_V : (skipIf c s).V = s.V := rfl
@[simp] theorem skipIf_I : (skipIf c s).I = s.I := rfl
@[simp] theorem skipIf_pc : (skipIf c s).pc = if c then s.pc + 4 else s.pc + 2 := rfl
@[simp] theorem skipIf_SP : (skipIf c s).SP = s.SP := rfl
@[simp] theorem skipIf_STACK : (skipIf c s).STACK = s.STACK := rfl
@[simp] theorem skipIf_DT : (skipIf c s).DT = s.DT := rfl
@[simp] theorem skipIf_ST : (skipIf c s).ST = s.ST := rfl
@[simp] theorem skipIf_KEYS : (skipIf c s).KEYS = s.KEYS := rfl
@[simp] theorem skipIf_KEY_PREV : (skipIf c s).KEY_PREV = s.KEY_PREV := rfl
@[simp] theorem skipIf_RUN : (skipIf c s).RUN = s.RUN := rfl
@[simp] theorem skipIf_DISP : (skipIf c s).DISP = s.DISP := rfl
@[simp] theorem skipIf_MEM : (skipIf c s).MEM = s.MEM := rfl
@[simp] theorem skipIf_params : (skipIf c s).params = s.params := rfl
@[simp] theorem skipIf_env : (skipIf c s).env = s.env := rfl

end

/-! ### setFlagThenResult -/

section

variable (s : State) (f : Byte) (x : Reg) (v : Byte)

@[simp] theorem setFlagThenResult_V : (setFlagThenResult f x v s).V = (s.V.set 15 f).set x.val v := rfl
@[simp] theorem setFlagThenResult_I : (setFlagThenResult f x v s).I = s.I := rfl
@[simp] theorem setFlagThenResult_pc : (setFlagThenResult f x v s).pc = s.pc := rfl
@[simp] theorem setFlagThenResult_SP : (setFlagThenResult f x v s).SP = s.SP := rfl
@[simp] theorem setFlagThenResult_STACK : (setFlagThenResult f x v s).STACK = s.STACK := rfl
@[simp] theorem setFlagThenResult_DT : (setFlagThenResult f x v s).DT = s.DT := rfl
@[simp] theorem setFlagThenResult_ST : (setFlagThenResult f x v s).ST = s.ST := rfl
@[simp] theorem setFlagThenResult_KEYS : (setFlagThenResult f x v s).KEYS = s.KEYS := rfl
@[simp] theorem setFlagThenResult_KEY_PREV : (setFlagThenResult f x v s).KEY_PREV = s.KEY_PREV := rfl
@[simp] theorem setFlagThenResult_RUN : (setFlagThenResult f x v s).RUN = s.RUN := rfl
@[simp] theorem setFlagThenResult_DISP : (setFlagThenResult f x v s).DISP = s.DISP := rfl
@[simp] theorem setFlagThenResult_MEM : (setFlagThenResult f x v s).MEM = s.MEM := rfl
@[simp] theorem setFlagThenResult_params : (setFlagThenResult f x v s).params = s.params := rfl
@[simp] theorem setFlagThenResult_env : (setFlagThenResult f x v s).env = s.env := rfl

end

/-! ### setVBlock -/

section

variable (s : State) (x : Reg) (bs : List Byte)

@[simp] theorem setVBlock_V : (setVBlock x bs s).V = Vector.ofFn fun k : Fin 16 => if k ≤ x then bs.getD k.val 0x00#8 else s.V[k.val] := rfl
@[simp] theorem setVBlock_I : (setVBlock x bs s).I = s.I := rfl
@[simp] theorem setVBlock_pc : (setVBlock x bs s).pc = s.pc := rfl
@[simp] theorem setVBlock_SP : (setVBlock x bs s).SP = s.SP := rfl
@[simp] theorem setVBlock_STACK : (setVBlock x bs s).STACK = s.STACK := rfl
@[simp] theorem setVBlock_DT : (setVBlock x bs s).DT = s.DT := rfl
@[simp] theorem setVBlock_ST : (setVBlock x bs s).ST = s.ST := rfl
@[simp] theorem setVBlock_KEYS : (setVBlock x bs s).KEYS = s.KEYS := rfl
@[simp] theorem setVBlock_KEY_PREV : (setVBlock x bs s).KEY_PREV = s.KEY_PREV := rfl
@[simp] theorem setVBlock_RUN : (setVBlock x bs s).RUN = s.RUN := rfl
@[simp] theorem setVBlock_DISP : (setVBlock x bs s).DISP = s.DISP := rfl
@[simp] theorem setVBlock_MEM : (setVBlock x bs s).MEM = s.MEM := rfl
@[simp] theorem setVBlock_params : (setVBlock x bs s).params = s.params := rfl
@[simp] theorem setVBlock_env : (setVBlock x bs s).env = s.env := rfl

end

/-! ### memWrite -/

section

variable (s : State) (a : Nat) (v : Byte)

@[simp] theorem memWrite_V : (memWrite a v s).V = s.V := rfl
@[simp] theorem memWrite_I : (memWrite a v s).I = s.I := rfl
@[simp] theorem memWrite_pc : (memWrite a v s).pc = s.pc := rfl
@[simp] theorem memWrite_SP : (memWrite a v s).SP = s.SP := rfl
@[simp] theorem memWrite_STACK : (memWrite a v s).STACK = s.STACK := rfl
@[simp] theorem memWrite_DT : (memWrite a v s).DT = s.DT := rfl
@[simp] theorem memWrite_ST : (memWrite a v s).ST = s.ST := rfl
@[simp] theorem memWrite_KEYS : (memWrite a v s).KEYS = s.KEYS := rfl
@[simp] theorem memWrite_KEY_PREV : (memWrite a v s).KEY_PREV = s.KEY_PREV := rfl
@[simp] theorem memWrite_RUN : (memWrite a v s).RUN = s.RUN := rfl
@[simp] theorem memWrite_DISP : (memWrite a v s).DISP = s.DISP := rfl
@[simp] theorem memWrite_MEM : (memWrite a v s).MEM = Memory.write s.params.font s.MEM a v := rfl
@[simp] theorem memWrite_params : (memWrite a v s).params = s.params := rfl
@[simp] theorem memWrite_env : (memWrite a v s).env = s.env := rfl

end

/-! ### tick -/

section

variable (s : State)

@[simp] theorem tick_V : (tick s).V = s.V := rfl
@[simp] theorem tick_I : (tick s).I = s.I := rfl
@[simp] theorem tick_pc : (tick s).pc = s.pc := rfl
@[simp] theorem tick_SP : (tick s).SP = s.SP := rfl
@[simp] theorem tick_STACK : (tick s).STACK = s.STACK := rfl
@[simp] theorem tick_DT : (tick s).DT = tickTimer s.DT := rfl
@[simp] theorem tick_ST : (tick s).ST = tickTimer s.ST := rfl
@[simp] theorem tick_KEYS : (tick s).KEYS = s.KEYS := rfl
@[simp] theorem tick_KEY_PREV : (tick s).KEY_PREV = s.KEY_PREV := rfl
@[simp] theorem tick_RUN : (tick s).RUN = s.RUN := rfl
@[simp] theorem tick_DISP : (tick s).DISP = s.DISP := rfl
@[simp] theorem tick_MEM : (tick s).MEM = s.MEM := rfl
@[simp] theorem tick_params : (tick s).params = s.params := rfl
@[simp] theorem tick_env : (tick s).env = s.env := rfl

end

/-! ### setKeys -/

section

variable (s : State) (k : Word)

@[simp] theorem setKeys_V : (setKeys k s).V = s.V := rfl
@[simp] theorem setKeys_I : (setKeys k s).I = s.I := rfl
@[simp] theorem setKeys_pc : (setKeys k s).pc = s.pc := rfl
@[simp] theorem setKeys_SP : (setKeys k s).SP = s.SP := rfl
@[simp] theorem setKeys_STACK : (setKeys k s).STACK = s.STACK := rfl
@[simp] theorem setKeys_DT : (setKeys k s).DT = s.DT := rfl
@[simp] theorem setKeys_ST : (setKeys k s).ST = s.ST := rfl
@[simp] theorem setKeys_KEYS : (setKeys k s).KEYS = k := rfl
@[simp] theorem setKeys_KEY_PREV : (setKeys k s).KEY_PREV = s.KEY_PREV := rfl
@[simp] theorem setKeys_RUN : (setKeys k s).RUN = s.RUN := rfl
@[simp] theorem setKeys_DISP : (setKeys k s).DISP = s.DISP := rfl
@[simp] theorem setKeys_MEM : (setKeys k s).MEM = s.MEM := rfl
@[simp] theorem setKeys_params : (setKeys k s).params = s.params := rfl
@[simp] theorem setKeys_env : (setKeys k s).env = s.env := rfl

end

/-! ### complete -/

section

variable (s : State) (st : Status)

@[simp] theorem complete_V : (complete st s).V = s.V := rfl
@[simp] theorem complete_I : (complete st s).I = s.I := rfl
@[simp] theorem complete_pc : (complete st s).pc = s.pc := rfl
@[simp] theorem complete_SP : (complete st s).SP = s.SP := rfl
@[simp] theorem complete_STACK : (complete st s).STACK = s.STACK := rfl
@[simp] theorem complete_DT : (complete st s).DT = s.DT := rfl
@[simp] theorem complete_ST : (complete st s).ST = s.ST := rfl
@[simp] theorem complete_KEYS : (complete st s).KEYS = s.KEYS := rfl
@[simp] theorem complete_KEY_PREV : (complete st s).KEY_PREV = s.KEYS := rfl
@[simp] theorem complete_RUN : (complete st s).RUN = s.RUN := rfl
@[simp] theorem complete_DISP : (complete st s).DISP = s.DISP := rfl
@[simp] theorem complete_MEM : (complete st s).MEM = s.MEM := rfl
@[simp] theorem complete_params : (complete st s).params = s.params := rfl
@[simp] theorem complete_env : (complete st s).env = { inputs := s.env.inputs.tail, draws := s.env.draws + 1, fresh := false, status := st } := rfl

end

end Sys2Proof.Machine
end

