-- ==== Sys2Proof/Laws/Memory.lean ====
section
/-! SUPPORT. Memory: a byte read after a write, the canonical form, and the byte sequences (20_memory.md R31, R32, R43). -/

namespace Sys2Proof.Machine

/-! ### One byte -/

theorem Memory.read_filter_ne (font : Vector Byte 80) (m : Memory) (a b : Nat) (h : b ≠ a) :
    Memory.read font (m.filter fun c => c.1 != a) b = Memory.read font m b := by
  induction m with
  | nil => rfl
  | cons c rest ih =>
    obtain ⟨k, v⟩ := c
    by_cases hk : k = a
    · simp [hk, Memory.read, ih, Ne.symm h]
    · simp [hk, Memory.read, ih]

theorem Memory.read_insert_of_absent (font : Vector Byte 80) (m : Memory) (a b : Nat) (v : Byte) (h : ∀ c ∈ m, c.1 ≠ a) :
    Memory.read font (Memory.insert (a, v) m) b = if b = a then v else Memory.read font m b := by
  induction m with
  | nil =>
    by_cases hb : b = a
    · simp [Memory.insert, Memory.read, hb]
    · simp [Memory.insert, Memory.read, hb, Ne.symm hb]
  | cons c rest ih =>
    obtain ⟨k, u⟩ := c
    have hk : k ≠ a := h (k, u) (by simp)
    have hrest := ih fun c hc => h c (by simp [hc])
    unfold Memory.insert
    split
    · by_cases hb : b = a
      · simp [Memory.read, hb]
      · simp [Memory.read, Ne.symm hb, hb]
    · by_cases hb : b = a
      · subst hb; simp [Memory.read, hk, hrest]
      · simp [Memory.read, hrest, hb]

theorem Memory.read_of_absent (font : Vector Byte 80) (m : Memory) (a : Nat) (h : ∀ c ∈ m, c.1 ≠ a) :
    Memory.read font m a = unlistedByte font a := by
  induction m with
  | nil => rfl
  | cons c rest ih =>
    obtain ⟨k, u⟩ := c
    have hk : k ≠ a := h (k, u) (by simp)
    simp [Memory.read, hk, ih fun c hc => h c (by simp [hc])]

/-- A read after a write gives the written byte there and leaves every other byte alone (R32), in any list. -/
@[simp] theorem Memory.read_write (font : Vector Byte 80) (m : Memory) (a b : Nat) (v : Byte) :
    Memory.read font (Memory.write font m a v) b = if b = a then v else Memory.read font m b := by
  have habs : ∀ c ∈ m.filter (fun c => c.1 != a), c.1 ≠ a := by simp
  unfold Memory.write
  by_cases hv : v = unlistedByte font a
  · by_cases hb : b = a
    · subst hb; simp [← hv, Memory.read_of_absent font _ _ habs]
    · simp [← hv, Memory.read_filter_ne font m a b hb, hb]
  · simp only [hv, if_false, Memory.read_insert_of_absent font _ _ _ _ habs]
    by_cases hb : b = a
    · simp [hb]
    · simp [hb, Memory.read_filter_ne font m a b hb]

theorem memRead_memWrite (a b : Nat) (v : Byte) (s : State) :
    memRead (memWrite a v s) b = if b = a then v else memRead s b := by
  simp [memRead]

/-! ### The canonical form -/

theorem Memory.mem_insert {c d : Host.Cell} {m : Memory} : d ∈ Memory.insert c m ↔ d = c ∨ d ∈ m := by
  induction m with
  | nil => simp [Memory.insert]
  | cons e rest ih =>
    unfold Memory.insert
    split
    · simp
    · simp [ih]; tauto

theorem Memory.pairwise_insert {a : Nat} {v : Byte} {m : Memory} (hm : m.Pairwise fun c d => c.1 < d.1)
    (habs : ∀ c ∈ m, c.1 ≠ a) : (Memory.insert (a, v) m).Pairwise fun c d => c.1 < d.1 := by
  induction m with
  | nil => simp [Memory.insert]
  | cons e rest ih =>
    have ⟨he, hrest⟩ := List.pairwise_cons.1 hm
    have hea : e.1 ≠ a := habs e (by simp)
    unfold Memory.insert
    split
    · rename_i hlt
      refine List.pairwise_cons.2 ⟨?_, hm⟩
      intro c hc
      rcases List.mem_cons.1 hc with rfl | hc
      · exact hlt
      · exact Nat.lt_trans hlt (he c hc)
    · rename_i hlt
      refine List.pairwise_cons.2 ⟨?_, ih hrest fun c hc => habs c (by simp [hc])⟩
      intro c hc
      rcases Memory.mem_insert.1 hc with rfl | hc
      · exact Nat.lt_of_le_of_ne (Nat.le_of_not_lt hlt) hea
      · exact he c hc

/-- A write below 4096 keeps the canonical form. -/
theorem Memory.wf_write {font : Vector Byte 80} {m : Memory} (hm : Memory.wf font m) {a : Nat} (ha : a < Config.memSize)
    (v : Byte) : Memory.wf font (Memory.write font m a v) := by
  have hsub : Memory.wf font (m.filter fun c => c.1 != a) :=
    ⟨hm.1.filter _, fun c hc => hm.2 c (List.mem_filter.1 hc).1⟩
  have habs : ∀ c ∈ m.filter (fun c => c.1 != a), c.1 ≠ a := by simp
  unfold Memory.write
  by_cases hv : v = unlistedByte font a
  · simp only [hv, if_true]; exact hsub
  · simp only [hv, if_false]
    refine ⟨Memory.pairwise_insert hsub.1 habs, fun c hc => ?_⟩
    rcases Memory.mem_insert.1 hc with rfl | hc
    · exact ⟨ha, hv⟩
    · exact hsub.2 c hc

/-- The memory of the reset state is in canonical form. -/
theorem reset_memory_wf : Memory.wf State.reset.params.font State.reset.MEM := by
  simp [Memory.wf, State.reset, State.construct]

/-! ### Byte sequences -/

section

variable (a : Nat) (bs : List Byte) (s : State)

@[simp] theorem memWriteBytes_V : (memWriteBytes a bs s).V = s.V := by
  induction bs generalizing a s <;> simp_all [memWriteBytes]
@[simp] theorem memWriteBytes_I : (memWriteBytes a bs s).I = s.I := by
  induction bs generalizing a s <;> simp_all [memWriteBytes]
@[simp] theorem memWriteBytes_pc : (memWriteBytes a bs s).pc = s.pc := by
  induction bs generalizing a s <;> simp_all [memWriteBytes]
@[simp] theorem memWriteBytes_SP : (memWriteBytes a bs s).SP = s.SP := by
  induction bs generalizing a s <;> simp_all [memWriteBytes]
@[simp] theorem memWriteBytes_STACK : (memWriteBytes a bs s).STACK = s.STACK := by
  induction bs generalizing a s <;> simp_all [memWriteBytes]
@[simp] theorem memWriteBytes_DT : (memWriteBytes a bs s).DT = s.DT := by
  induction bs generalizing a s <;> simp_all [memWriteBytes]
@[simp] theorem memWriteBytes_ST : (memWriteBytes a bs s).ST = s.ST := by
  induction bs generalizing a s <;> simp_all [memWriteBytes]
@[simp] theorem memWriteBytes_KEYS : (memWriteBytes a bs s).KEYS = s.KEYS := by
  induction bs generalizing a s <;> simp_all [memWriteBytes]
@[simp] theorem memWriteBytes_KEY_PREV : (memWriteBytes a bs s).KEY_PREV = s.KEY_PREV := by
  induction bs generalizing a s <;> simp_all [memWriteBytes]
@[simp] theorem memWriteBytes_RUN : (memWriteBytes a bs s).RUN = s.RUN := by
  induction bs generalizing a s <;> simp_all [memWriteBytes]
@[simp] theorem memWriteBytes_DISP : (memWriteBytes a bs s).DISP = s.DISP := by
  induction bs generalizing a s <;> simp_all [memWriteBytes]
@[simp] theorem memWriteBytes_params : (memWriteBytes a bs s).params = s.params := by
  induction bs generalizing a s <;> simp_all [memWriteBytes]
@[simp] theorem memWriteBytes_env : (memWriteBytes a bs s).env = s.env := by
  induction bs generalizing a s <;> simp_all [memWriteBytes]

end

/-- Writing a byte sequence changes the memory and nothing else. -/
theorem memWriteBytes_eq (a : Nat) (bs : List Byte) (s : State) :
    memWriteBytes a bs s = { s with MEM := (memWriteBytes a bs s).MEM } := by
  induction bs generalizing a s with
  | nil => rfl
  | cons b rest ih => exact ih (a + 1) (memWrite a b s)

/-- The bytes of a sequence land at `a`, `a + 1`, ... and every other byte stays. -/
theorem memRead_memWriteBytes (a : Nat) (bs : List Byte) (s : State) (b : Nat) :
    memRead (memWriteBytes a bs s) b =
      if a ≤ b ∧ b < a + bs.length then bs.getD (b - a) 0x00#8 else memRead s b := by
  induction bs generalizing a s with
  | nil =>
    have : ¬(a ≤ b ∧ b < a + 0) := by omega
    simp only [memWriteBytes, List.length_nil, this, if_false]
  | cons v rest ih =>
    rw [memWriteBytes, ih, memRead_memWrite]
    rcases Nat.lt_trichotomy b a with h | h | h
    · have h1 : ¬(a + 1 ≤ b ∧ b < a + 1 + rest.length) := by omega
      have h2 : ¬(a ≤ b ∧ b < a + (v :: rest).length) := by simp; omega
      have h3 : b ≠ a := by omega
      simp only [h1, h2, h3, if_false]
    · subst h; simp
    · obtain ⟨d, rfl⟩ : ∃ d, b = a + 1 + d := ⟨b - (a + 1), by omega⟩
      have h3 : a + 1 + d ≠ a := by omega
      have h4 : a + 1 + d - a = d + 1 := by omega
      have h5 : a + 1 + d - (a + 1) = d := by omega
      simp only [h3, h4, h5, if_false, List.length_cons, List.getD_cons_succ]
      congr 1
      exact propext (by omega)

/-- A sequence that ends below 4096 keeps the canonical form. -/
theorem memWriteBytes_wf {a : Nat} {bs : List Byte} {s : State} (hs : Memory.wf s.params.font s.MEM)
    (ha : a + bs.length ≤ Config.memSize) : Memory.wf s.params.font (memWriteBytes a bs s).MEM := by
  induction bs generalizing a s with
  | nil => exact hs
  | cons b rest ih =>
    simp only [List.length_cons] at ha
    exact ih (s := memWrite a b s) (Memory.wf_write hs (by omega) b) (by omega)

@[simp] theorem memReadBytes_length (s : State) (a n : Nat) : (memReadBytes s a n).length = n := by
  simp [memReadBytes]

/-- The k-th byte of a sequence is the byte at `a + k`. -/
theorem memReadBytes_getD (s : State) (a n k : Nat) (h : k < n) :
    (memReadBytes s a n).getD k 0x00#8 = memRead s (a + k) := by
  simp [memReadBytes, List.getD_eq_getElem?_getD, h]

end Sys2Proof.Machine
end

