-- ==== Sys2Proof/Laws/Ops.lean ====
section
/-! SUPPORT. One lemma per shared operation: everything it can do, for later proofs to cite instead of unfolding it. -/

namespace Sys2Proof.Machine

/-! ### Errors -/

theorem checkRange_of_lt {a len : Nat} (h : a + len - 1 < Config.memSize) (k : Result) : checkRange a len k = k :=
  if_neg (Nat.not_le.2 h)

theorem checkRange_of_ge {a len : Nat} (h : Config.memSize ≤ a + len - 1) (k : Result) :
    checkRange a len k = .fault (.addressOutOfRange (max a Config.memSize)) :=
  if_pos h

/-- CheckRange lets the rest run, or raises AddressOutOfRange with the lowest address out of range (R33). -/
theorem checkRange_cases (a len : Nat) (k : Result) :
    (a + len - 1 < Config.memSize ∧ checkRange a len k = k) ∨
      (Config.memSize ≤ a + len - 1 ∧ checkRange a len k = .fault (.addressOutOfRange (max a Config.memSize))) := by
  rcases Nat.lt_or_ge (a + len - 1) Config.memSize with h | h
  · exact .inl ⟨h, checkRange_of_lt h k⟩
  · exact .inr ⟨h, checkRange_of_ge h k⟩

/-! ### General registers -/

@[simp] theorem getV_setV (x y : Reg) (v : Byte) (s : State) : getV (setV x v s) y = if y = x then v else getV s y := by
  unfold getV
  simp only [setV_V, Vector.getElem_set]
  by_cases h : x = y
  · simp [h]
  · have : x.val ≠ y.val := fun e => h (Fin.ext e)
    simp [this, Ne.symm h]

/-- The result wins over the flag where both go to VF (R71). -/
theorem getV_setFlagThenResult (f : Byte) (x y : Reg) (v : Byte) (s : State) :
    getV (setFlagThenResult f x v s) y = if y = x then v else if y = VF then f else getV s y := by
  simp [setFlagThenResult]

theorem getV_setVBlock (x y : Reg) (bs : List Byte) (s : State) :
    getV (setVBlock x bs s) y = if y ≤ x then bs.getD y.val 0x00#8 else getV s y := by
  simp [getV, setVBlock]

theorem regBlock_length (s : State) (x : Reg) : (regBlock s x).length = x.val + 1 := by
  simp [regBlock]

theorem regBlock_getD (s : State) (x k : Reg) (h : k ≤ x) : (regBlock s x).getD k.val 0x00#8 = getV s k := by
  have hk : k.val < x.val + 1 := Nat.lt_succ_of_le h
  simp [regBlock, List.getD_eq_getElem?_getD, hk, getV]

/-! ### Flags -/

@[simp] theorem flagOf_toNat (b : Bool) : (flagOf b).toNat = b.toNat := by cases b <;> rfl

@[simp] theorem flagOf_eq_one (b : Bool) : flagOf b = 0x01#8 ↔ b = true := by cases b <;> decide

@[simp] theorem flagOf_eq_zero (b : Bool) : flagOf b = 0x00#8 ↔ b = false := by cases b <;> decide

/-! ### The call stack -/

/-- A push either stacks the address and counts it, or raises StackOverflow when 16 are stacked (R64). -/
theorem pushReturn_cases (a : Word) (s : State) (k : State → Result) :
    (∃ j : Fin 16, s.SP = j.castSucc ∧
        pushReturn a s k = k { s with STACK := s.STACK.set j.val a, SP := j.succ }) ∨
      (s.SP = 16 ∧ pushReturn a s k = .fault (.stackOverflow s.pc)) := by
  by_cases h : s.SP.val < Config.stackDepth
  · exact .inl ⟨⟨s.SP.val, h⟩, rfl, by simp only [pushReturn, h, dite_true]; rfl⟩
  · have := s.SP.isLt
    exact .inr ⟨Fin.ext (by simp [Config.stackDepth] at h ⊢; omega), by simp only [pushReturn, h, dite_false]; rfl⟩

/-- A pop either gives the top entry and counts it off, leaving it in its slot, or raises StackUnderflow (R62). -/
theorem popReturn_cases (s : State) (k : Word → State → Result) :
    (∃ j : Fin 16, s.SP = j.succ ∧ popReturn s k = k s.STACK[j.val] { s with SP := j.castSucc }) ∨
      (s.SP = 0 ∧ popReturn s k = .fault (.stackUnderflow s.pc)) := by
  have hlt := s.SP.isLt
  by_cases h : s.SP.val = 0
  · exact .inr ⟨Fin.ext h, by simp only [popReturn, h, dite_true]; rfl⟩
  · exact .inl ⟨⟨s.SP.val - 1, by omega⟩, Fin.ext (by simp; omega), by simp only [popReturn, h, dite_false]; rfl⟩

/-! ### Timers -/

/-- A timer counts down and stops at 0 (60_exceptions.md R114). -/
theorem tickTimer_toNat (t : Byte) : (tickTimer t).toNat = t.toNat - 1 := by
  unfold tickTimer
  split
  · rename_i h; simp [h]
  · rename_i h
    have hpos : t.toNat ≠ 0 := fun e => h (BitVec.eq_of_toNat_eq (by simpa using e))
    have := t.isLt
    rw [BitVec.toNat_sub]; simp; omega

/-! ### Keys -/

/-- The lowest set bit is found (44_timer_input.md R98). -/
theorem lowestKey_eq_some {e : Word} {k : Reg} :
    lowestKey e = some k ↔ e.getLsbD k.val = true ∧ ∀ j < k, e.getLsbD j.val = false := by
  unfold lowestKey
  rw [List.find?_eq_some_iff_getElem]
  constructor
  · rintro ⟨hk, i, hi, rfl, hbefore⟩
    refine ⟨hk, fun j hj => ?_⟩
    have hj' : j.val < i := by simpa [Fin.lt_def] using hj
    simpa using hbefore j.val hj'
  · rintro ⟨hk, hbefore⟩
    refine ⟨hk, k.val, by simp, by simp, fun j hj => ?_⟩
    have hlt : j < 16 := Nat.lt_trans hj k.isLt
    simpa using hbefore ⟨j, hlt⟩ (Fin.lt_def.2 hj)

theorem lowestKey_eq_none {e : Word} : lowestKey e = none ↔ ∀ k : Reg, e.getLsbD k.val = false := by
  simp [lowestKey, List.find?_eq_none]

/-- The bit of key `k` in the edge mask: pressed now and released before (R97). -/
theorem keyEdges_getLsbD (s : State) (k : Reg) :
    (keyEdges s).getLsbD k.val = (s.KEYS.getLsbD k.val && !s.KEY_PREV.getLsbD k.val) := by
  have := k.isLt
  simp [keyEdges, this]

theorem keyPressed_of_lt (s : State) {v : Byte} (h : v.toNat < 16) (k : Bool → Result) :
    keyPressed s v k = k (s.KEYS.getLsbD v.toNat) := by
  rw [keyPressed, if_pos (by omega), keyLevel, Fin.val_ofNat, Nat.mod_eq_of_lt h]

theorem keyPressed_of_ge (s : State) {v : Byte} (h : 16 ≤ v.toNat) (k : Bool → Result) :
    keyPressed s v k =
      match s.params.keyIndexPolicy with
      | .fault => .fault (.keyIndexOutOfRange v)
      | .maskLowNibble => k (s.KEYS.getLsbD (v.toNat % 16))
      | .notPressed => k false := by
  rw [keyPressed, if_neg (by omega)]
  cases s.params.keyIndexPolicy <;> rfl

/-- KeyPressed goes on with a level, or raises KeyIndexOutOfRange under the policy Fault (R96). -/
theorem keyPressed_cases (s : State) (v : Byte) (k : Bool → Result) :
    (∃ p, keyPressed s v k = k p ∧ (v.toNat < 16 → p = s.KEYS.getLsbD v.toNat)) ∨
      (16 ≤ v.toNat ∧ s.params.keyIndexPolicy = .fault ∧ keyPressed s v k = .fault (.keyIndexOutOfRange v)) := by
  rcases Nat.lt_or_ge v.toNat 16 with h | h
  · exact .inl ⟨_, keyPressed_of_lt s h k, fun _ => rfl⟩
  · rw [keyPressed_of_ge s h]
    cases hp : s.params.keyIndexPolicy with
    | fault => exact .inr ⟨h, rfl, rfl⟩
    | maskLowNibble => exact .inl ⟨_, rfl, fun hlt => absurd hlt (by omega)⟩
    | notPressed => exact .inl ⟨_, rfl, fun hlt => absurd hlt (by omega)⟩

/-! ### The tick of Coupled mode touches the timers only -/

section

variable (s : State)

/-- A Running cycle's own tick: in Coupled mode DT and ST, in Decoupled mode nothing (R116). -/
theorem coupledTick_eq : coupledTick s = { s with DT := (coupledTick s).DT, ST := (coupledTick s).ST } := by
  unfold coupledTick; split <;> rfl

@[simp] theorem coupledTick_V : (coupledTick s).V = s.V := by rw [coupledTick_eq]
@[simp] theorem coupledTick_I : (coupledTick s).I = s.I := by rw [coupledTick_eq]
@[simp] theorem coupledTick_pc : (coupledTick s).pc = s.pc := by rw [coupledTick_eq]
@[simp] theorem coupledTick_SP : (coupledTick s).SP = s.SP := by rw [coupledTick_eq]
@[simp] theorem coupledTick_STACK : (coupledTick s).STACK = s.STACK := by rw [coupledTick_eq]
@[simp] theorem coupledTick_KEYS : (coupledTick s).KEYS = s.KEYS := by rw [coupledTick_eq]
@[simp] theorem coupledTick_KEY_PREV : (coupledTick s).KEY_PREV = s.KEY_PREV := by rw [coupledTick_eq]
@[simp] theorem coupledTick_RUN : (coupledTick s).RUN = s.RUN := by rw [coupledTick_eq]
@[simp] theorem coupledTick_DISP : (coupledTick s).DISP = s.DISP := by rw [coupledTick_eq]
@[simp] theorem coupledTick_MEM : (coupledTick s).MEM = s.MEM := by rw [coupledTick_eq]
@[simp] theorem coupledTick_params : (coupledTick s).params = s.params := by rw [coupledTick_eq]
@[simp] theorem coupledTick_env : (coupledTick s).env = s.env := by rw [coupledTick_eq]

end

end Sys2Proof.Machine
end

