-- ==== Sys2Proof/Laws/Display.lean ====
section
/-! SUPPORT. The XOR raster: a sprite is a list of distinct pixels (43_display.md R93), each inverted once, and the collision
result says whether one of them was 1. -/

namespace Sys2Proof.Machine

theorem pixel_flipPixel (d : Display) (r R : Fin 32) (c C : Fin 64) :
    pixel (flipPixel d r c) R C = (pixel d R C ^^ decide (R = r ∧ C = c)) := by
  by_cases hr : R = r
  · subst hr
    by_cases hc : C = c
    · subst hc; simp [pixel, flipPixel]
    · have : c.val ≠ C.val := fun e => hc (Fin.ext e.symm)
      simp [pixel, flipPixel, hc, Vector.getElem_set_ne _ _ this]
  · have : r.val ≠ R.val := fun e => hr (Fin.ext e.symm)
    simp [pixel, flipPixel, hr, Vector.getElem_set_ne _ _ this]

/-- Every pixel of a list hit in turn. -/
def hitAll (ps : List (Fin 32 × Fin 64)) (dh : Display × Bool) : Display × Bool :=
  ps.foldl (fun dh p => hitPixel dh p.1 p.2) dh

/-- Distinct pixels hit in turn: each is inverted, the others stay. -/
theorem pixel_hitAll {ps : List (Fin 32 × Fin 64)} (hps : ps.Nodup) (dh : Display × Bool) (R : Fin 32) (C : Fin 64) :
    pixel (hitAll ps dh).1 R C = (pixel dh.1 R C ^^ decide ((R, C) ∈ ps)) := by
  induction ps generalizing dh with
  | nil => simp [hitAll]
  | cons p rest ih =>
    have ⟨hp, hrest⟩ := List.nodup_cons.1 hps
    have step : hitAll (p :: rest) dh = hitAll rest (hitPixel dh p.1 p.2) := rfl
    rw [step, ih hrest]
    simp only [hitPixel, pixel_flipPixel]
    by_cases he : (R, C) = p
    · subst he; simp [hp]
    · have : ¬(R = p.1 ∧ C = p.2) := fun e => he (Prod.ext e.1 e.2)
      simp [this, he]

/-- Distinct pixels hit in turn: the collision result tells whether one of them was 1. -/
theorem hit_hitAll {ps : List (Fin 32 × Fin 64)} (hps : ps.Nodup) (dh : Display × Bool) :
    (hitAll ps dh).2 = true ↔ dh.2 = true ∨ ∃ p ∈ ps, pixel dh.1 p.1 p.2 = true := by
  induction ps generalizing dh with
  | nil => simp [hitAll]
  | cons p rest ih =>
    have ⟨hp, hrest⟩ := List.nodup_cons.1 hps
    have step : hitAll (p :: rest) dh = hitAll rest (hitPixel dh p.1 p.2) := rfl
    have keep : ∀ q ∈ rest, pixel (flipPixel dh.1 p.1 p.2) q.1 q.2 = pixel dh.1 q.1 q.2 := by
      intro q hq
      have : ¬(q.1 = p.1 ∧ q.2 = p.2) := fun e => hp (Prod.ext e.1 e.2 ▸ hq)
      simp [pixel_flipPixel, this]
    rw [step, ih hrest]
    simp only [hitPixel, Bool.or_eq_true, List.mem_cons, exists_eq_or_imp]
    constructor
    · rintro ((h | h) | ⟨q, hq, h⟩)
      · exact .inl h
      · exact .inr (.inl h)
      · exact .inr (.inr ⟨q, hq, keep q hq ▸ h⟩)
    · rintro (h | h | ⟨q, hq, h⟩)
      · exact .inl (.inl h)
      · exact .inl (.inr h)
      · exact .inr ⟨q, hq, (keep q hq).symm ▸ h⟩

/-- The display pixels under the 1 bits of a sprite whose rows start at display row `oy` (R91, R92). -/
def spritePixels (oy ox : Nat) : List Byte → List (Fin 32 × Fin 64)
  | [] => []
  | row :: rest =>
    ((List.range 8).filter fun c => spriteBit row c).map (fun c => (Fin.ofNat 32 oy, Fin.ofNat 64 (ox + c))) ++
      spritePixels (oy + 1) ox rest

theorem drawRow_eq_hitAll (r : Fin 32) (ox : Nat) (row : Byte) (dh : Display × Bool) :
    drawRow r ox row dh =
      hitAll (((List.range 8).filter fun c => spriteBit row c).map fun c => (r, Fin.ofNat 64 (ox + c))) dh := by
  unfold drawRow hitAll
  rw [List.foldl_map, List.foldl_filter]

/-- Drawing the rows of a sprite hits its pixels in turn. -/
theorem drawRows_eq_hitAll (oy ox : Nat) (rows : List Byte) (dh : Display × Bool) :
    drawRows oy ox rows dh = hitAll (spritePixels oy ox rows) dh := by
  induction rows generalizing oy dh with
  | nil => rfl
  | cons row rest ih =>
    rw [drawRows, ih, drawRow_eq_hitAll]
    simp only [spritePixels, hitAll, List.foldl_append]

/-- Which display pixels a sprite covers with a 1 bit (R91, R92). -/
theorem mem_spritePixels {oy ox : Nat} {rows : List Byte} {R : Fin 32} {C : Fin 64} :
    (R, C) ∈ spritePixels oy ox rows ↔
      ∃ r c, r < rows.length ∧ c < 8 ∧ spriteBit (rows.getD r 0x00#8) c = true ∧
        R.val = (oy + r) % 32 ∧ C.val = (ox + c) % 64 := by
  induction rows generalizing oy with
  | nil => simp [spritePixels]
  | cons row rest ih =>
    simp only [spritePixels, List.mem_append, List.mem_map, List.mem_filter, List.mem_range, Prod.mk.injEq, ih]
    constructor
    · rintro (⟨c, ⟨hc, hb⟩, hR, hC⟩ | ⟨r, c, hr, hc, hb, hR, hC⟩)
      · exact ⟨0, c, by simp, hc, by simpa using hb, by simp [← hR, Fin.ofNat], by simp [← hC, Fin.ofNat]⟩
      · exact ⟨r + 1, c, by simpa using hr, hc, by simpa using hb, by rw [hR]; congr 1; omega, hC⟩
    · rintro ⟨r, c, hr, hc, hb, hR, hC⟩
      cases r with
      | zero =>
        exact .inl ⟨c, ⟨hc, by simpa using hb⟩, Fin.ext (by simp [Fin.ofNat, hR]), Fin.ext (by simp [Fin.ofNat, hC])⟩
      | succ r =>
        exact .inr ⟨r, c, by simpa using hr, hc, by simpa using hb, by rw [hR]; congr 1; omega, hC⟩

/-- "no two pixels of one sprite land on the same display pixel" (R93). -/
theorem spritePixels_nodup {oy ox : Nat} {rows : List Byte} (h : rows.length ≤ 32) : (spritePixels oy ox rows).Nodup := by
  induction rows generalizing oy with
  | nil => simp [spritePixels]
  | cons row rest ih =>
    simp only [List.length_cons] at h
    unfold spritePixels
    refine List.nodup_append.2 ⟨?_, ih (by omega), ?_⟩
    · refine List.Nodup.map_on ?_ (List.Nodup.filter _ List.nodup_range)
      intro c hc d hd e
      have hc8 : c < 8 := by simpa using (List.mem_filter.1 hc).1
      have hd8 : d < 8 := by simpa using (List.mem_filter.1 hd).1
      have := congrArg (fun p : Fin 32 × Fin 64 => p.2.val) e
      simp [Fin.ofNat] at this
      omega
    · rintro p hp q hq rfl
      obtain ⟨c, -, rfl⟩ := List.mem_map.1 hp
      obtain ⟨r, -, hr, -, -, hR, -⟩ := mem_spritePixels.1 hq
      simp [Fin.ofNat] at hR
      omega

end Sys2Proof.Machine
end

