-- ==== Sys2Proof/Laws/PerInstr.lean ====
section
/-! SUPPORT. The statements made per instruction: the encoder's word selects the instruction's own row of the opcode map
(30_encoding.md R49). -/

namespace Sys2Proof.Laws.MatchesRow

/-- The word of an instruction selects its row: `w AND mask_r = match_r` (R49). -/
def Statement (i : Instr) : Prop := encode i &&& i.row.mask = i.row.value

/-- Class-only rows: formats NNN, XKK and XYN. -/
theorem of_class {w : Word} {c x y n : BitVec 4} (h : w = nibbles c x y n) {v : Word} (hv : nibbles c 0 0 0 = v) :
    w &&& 0xF000#16 = v := by rw [h, nibbles_and_F000, hv]

/-- Rows of format XYS. -/
theorem of_class_nibble {w : Word} {c x y n : BitVec 4} (h : w = nibbles c x y n) {v : Word} (hv : nibbles c 0 0 n = v) :
    w &&& 0xF00F#16 = v := by rw [h, nibbles_and_F00F, hv]

/-- Rows of format XSS. -/
theorem of_class_byte {w : Word} {c x y n : BitVec 4} (h : w = nibbles c x y n) {v : Word} (hv : nibbles c 0 y n = v) :
    w &&& 0xF0FF#16 = v := by rw [h, nibbles_and_F0FF, hv]

theorem clearScreen : Statement .clearScreen := by unfold Statement; decide
theorem ret : Statement .ret := by unfold Statement; decide
theorem jump (nnn : Addr12) : Statement (.jump nnn) := of_class (encodeNNN_eq _ nnn) rfl
theorem call (nnn : Addr12) : Statement (.call nnn) := of_class (encodeNNN_eq _ nnn) rfl
theorem loadAddr (nnn : Addr12) : Statement (.loadAddr nnn) := of_class (encodeNNN_eq _ nnn) rfl
theorem jumpOffset (nnn : Addr12) : Statement (.jumpOffset nnn) := of_class (encodeNNN_eq _ nnn) rfl
theorem skipEqImm (x : Reg) (kk : Byte) : Statement (.skipEqImm x kk) := of_class (encodeXKK_eq _ x kk) rfl
theorem skipNeqImm (x : Reg) (kk : Byte) : Statement (.skipNeqImm x kk) := of_class (encodeXKK_eq _ x kk) rfl
theorem loadImm (x : Reg) (kk : Byte) : Statement (.loadImm x kk) := of_class (encodeXKK_eq _ x kk) rfl
theorem addImm (x : Reg) (kk : Byte) : Statement (.addImm x kk) := of_class (encodeXKK_eq _ x kk) rfl
theorem random (x : Reg) (kk : Byte) : Statement (.random x kk) := of_class (encodeXKK_eq _ x kk) rfl
theorem skipEqReg (x y : Reg) : Statement (.skipEqReg x y) := of_class_nibble (encodeXYN_eq _ x y _) rfl
theorem loadReg (x y : Reg) : Statement (.loadReg x y) := of_class_nibble (encodeXYN_eq _ x y _) rfl
theorem orReg (x y : Reg) : Statement (.orReg x y) := of_class_nibble (encodeXYN_eq _ x y _) rfl
theorem andReg (x y : Reg) : Statement (.andReg x y) := of_class_nibble (encodeXYN_eq _ x y _) rfl
theorem xorReg (x y : Reg) : Statement (.xorReg x y) := of_class_nibble (encodeXYN_eq _ x y _) rfl
theorem addReg (x y : Reg) : Statement (.addReg x y) := of_class_nibble (encodeXYN_eq _ x y _) rfl
theorem subReg (x y : Reg) : Statement (.subReg x y) := of_class_nibble (encodeXYN_eq _ x y _) rfl
theorem shiftRight (x y : Reg) : Statement (.shiftRight x y) := of_class_nibble (encodeXYN_eq _ x y _) rfl
theorem subnReg (x y : Reg) : Statement (.subnReg x y) := of_class_nibble (encodeXYN_eq _ x y _) rfl
theorem shiftLeft (x y : Reg) : Statement (.shiftLeft x y) := of_class_nibble (encodeXYN_eq _ x y _) rfl
theorem skipNeqReg (x y : Reg) : Statement (.skipNeqReg x y) := of_class_nibble (encodeXYN_eq _ x y _) rfl
theorem draw (x y : Reg) (n : Nat) : Statement (.draw x y n) := of_class (encodeXYN_eq _ x y _) rfl
theorem skipKeyPressed (x : Reg) : Statement (.skipKeyPressed x) := of_class_byte (encodeXKK_eq _ x _) rfl
theorem skipKeyNotPressed (x : Reg) : Statement (.skipKeyNotPressed x) := of_class_byte (encodeXKK_eq _ x _) rfl
theorem loadDelay (x : Reg) : Statement (.loadDelay x) := of_class_byte (encodeXKK_eq _ x _) rfl
theorem waitKey (x : Reg) : Statement (.waitKey x) := of_class_byte (encodeXKK_eq _ x _) rfl
theorem setDelay (x : Reg) : Statement (.setDelay x) := of_class_byte (encodeXKK_eq _ x _) rfl
theorem setSound (x : Reg) : Statement (.setSound x) := of_class_byte (encodeXKK_eq _ x _) rfl
theorem addAddr (x : Reg) : Statement (.addAddr x) := of_class_byte (encodeXKK_eq _ x _) rfl
theorem fontAddr (x : Reg) : Statement (.fontAddr x) := of_class_byte (encodeXKK_eq _ x _) rfl
theorem storeBcd (x : Reg) : Statement (.storeBcd x) := of_class_byte (encodeXKK_eq _ x _) rfl
theorem storeRegs (x : Reg) : Statement (.storeRegs x) := of_class_byte (encodeXKK_eq _ x _) rfl
theorem loadRegs (x : Reg) : Statement (.loadRegs x) := of_class_byte (encodeXKK_eq _ x _) rfl

end Sys2Proof.Laws.MatchesRow
end

