-- ==== Sys2Proof/Laws/Step.lean ====
section
/-! SUPPORT. What a cycle and a step can do, said once (30_encoding.md R57, 60_exceptions.md R118). -/

namespace Sys2Proof.Machine

/-- A list of host operations runs its first one and then the others, and stops where one is refused. -/
theorem applyHostOps_cons (op : HostOp) (rest : List HostOp) (s : State) :
    applyHostOps (op :: rest) s =
      match applyHostOp op s with
      | .next t => applyHostOps rest t
      | .fault e => .fault e
      | .refused r => .refused r := rfl

/-- No operation of the host raises a fatal error. -/
theorem applyHostOp_ne_fault (op : HostOp) (s : State) (e : Fault) : applyHostOp op s ≠ .fault e := by
  cases op with
  | reset => simp [applyHostOp]
  | romLoad bytes => simp only [applyHostOp, romLoad]; split <;> (try split) <;> simp
  | setKeys k => simp [applyHostOp]
  | tick => simp only [applyHostOp, hostTick]; split <;> simp

theorem applyHostOps_ne_fault (ops : List HostOp) (s : State) (e : Fault) : applyHostOps ops s ≠ .fault e := by
  induction ops generalizing s with
  | nil => simp [applyHostOps]
  | cons op rest ih =>
    rw [applyHostOps_cons]
    cases h : applyHostOp op s with
    | next t => exact ih t
    | fault e' => exact absurd h (applyHostOp_ne_fault op s e')
    | refused r => simp

/-- A cycle resolves a wait, or fails the fetch check, or runs the word it fetched against the ticked timers (R57). -/
theorem cycle_cases (s : State) :
    (∃ t, s.RUN = .awaitingKey t ∧ cycle s = .next (complete .ok (resolveWait t s))) ∨
      (s.RUN = .running ∧ Config.memSize ≤ s.pc.toNat + 1 ∧
        cycle s = .fault (.addressOutOfRange (max s.pc.toNat Config.memSize))) ∨
      (s.RUN = .running ∧ s.pc.toNat + 1 < Config.memSize ∧ cycle s = runWord (fetchWord s) (coupledTick s)) := by
  cases hrun : s.RUN with
  | awaitingKey t => exact .inl ⟨t, rfl, by simp [cycle, hrun]⟩
  | running =>
    refine .inr ?_
    rcases Nat.lt_or_ge (s.pc.toNat + 1) Config.memSize with h | h
    · exact .inr ⟨rfl, h, by simp only [cycle, hrun]; exact checkRange_of_lt (by omega) _⟩
    · exact .inl ⟨rfl, h, by simp only [cycle, hrun]; exact checkRange_of_ge (by omega) _⟩

/-- A cycle that gives a next state has resolved a wait, or completed the instruction it decoded, or completed an unrecognized
word (R57). -/
theorem cycle_next {s t : State} (h : cycle s = .next t) :
    (∃ k, s.RUN = .awaitingKey k ∧ t = complete .ok (resolveWait k s)) ∨
      (s.RUN = .running ∧ s.pc.toNat + 1 < Config.memSize ∧
        ((∃ i u, decode (fetchWord s) = .instr i ∧ exec i (coupledTick s) = .next u ∧ t = complete .ok u) ∨
          (∃ w, decode (fetchWord s) = .unrecognized w ∧
            t = complete (.unrecognizedInstruction w) (advance (coupledTick s))))) := by
  rcases cycle_cases s with ⟨k, hk, hc⟩ | ⟨-, -, hc⟩ | ⟨hr, hlt, hc⟩
  · rw [hc] at h; exact .inl ⟨k, hk, (Host.Outcome.next.inj h).symm⟩
  · rw [hc] at h; cases h
  · refine .inr ⟨hr, hlt, ?_⟩
    rw [hc, runWord] at h
    cases hd : decode (fetchWord s) with
    | instr i =>
      simp only [hd] at h
      cases he : exec i (coupledTick s) with
      | next u => rw [he] at h; exact .inl ⟨i, u, rfl, he, (Host.Outcome.next.inj h).symm⟩
      | fault e => rw [he] at h; cases h
      | refused r => rw [he] at h; cases h
    | unrecognized w =>
      simp only [hd] at h
      exact .inr ⟨w, rfl, (Host.Outcome.next.inj h).symm⟩

/-- A step that gives a next state has applied the gap's operations and completed a cycle. -/
theorem step_next {s u : State} (h : step s = .next u) : ∃ t, applyHostOps (gapOps s) s = .next t ∧ cycle t = .next u := by
  unfold step at h
  cases hg : applyHostOps (gapOps s) s with
  | next t => rw [hg] at h; exact ⟨t, rfl, h⟩
  | fault e => rw [hg] at h; cases h
  | refused r => rw [hg] at h; cases h

end Sys2Proof.Machine
end

