-- ==== Sys2Proof/Tests/Slice0.lean ====
section
/-! SUPPORT. The model's own tests: words written out from the spec's encodings (30_encoding.md R49), the vectors of
95_test_vectors.md (named in each comment), ill-formed terms, and for each statement with hypotheses the states and operands that
meet them. -/

namespace Sys2Proof.Tests

open Sys2Proof.Machine

/-! ### Helpers -/

/-- The state `s` with the word `w` at `pc`. -/
def atPc (pc w : Word) (s : State) : State := memWriteBytes pc.toNat [hiByte w, loByte w] { s with pc := pc }

/-- The reset state with the given general registers. -/
def withV (regs : List (Reg × Byte)) : State := regs.foldl (fun s r => setV r.1 r.2 s) State.reset

/-- What `f` reads from the next state, if there is one. -/
def after {α : Type} (r : Result) (f : State → α) : Option α :=
  match r with
  | .next t => some (f t)
  | .fault _ => none
  | .refused _ => none

/-- The fatal error, if there is one. -/
def faultOf (r : Result) : Option Fault :=
  match r with
  | .fault e => some e
  | .next _ => none
  | .refused _ => none

/-- The pixels at 1, as (row, column). -/
def lit (s : State) : List (Nat × Nat) :=
  (List.finRange 32).flatMap fun r => ((List.finRange 64).filter fun c => pixel s.DISP r c).map fun c => (r.val, c.val)

/-! ### Well-formedness -/

theorem test_draw_of_sixteen_rows_is_ill_formed : (Instr.draw 0 0 16).wellFormed = false := by decide
theorem test_draw_of_fifteen_rows_is_well_formed : (Instr.draw 0 0 15).wellFormed = true := by decide

/-! ### Decoding: the words are the patterns of R49, bit by bit -/

theorem test_decode_clear_screen : decode 0b0000_0000_1110_0000#16 = .instr .clearScreen := by decide
theorem test_decode_return : decode 0b0000_0000_1110_1110#16 = .instr .ret := by decide
theorem test_decode_jump : decode 0b0001_0010_0000_0100#16 = .instr (.jump 0x204) := by decide
theorem test_decode_call : decode 0b0010_0010_0011_0100#16 = .instr (.call 0x234) := by decide
theorem test_decode_skip_eq_imm : decode 0b0011_1111_0000_0001#16 = .instr (.skipEqImm 15 0x01) := by decide
theorem test_decode_skip_neq_imm : decode 0b0100_0011_0001_0010#16 = .instr (.skipNeqImm 3 0x12) := by decide
theorem test_decode_skip_eq_reg : decode 0b0101_0001_0010_0000#16 = .instr (.skipEqReg 1 2) := by decide
theorem test_decode_load_imm : decode 0b0110_0000_1111_1111#16 = .instr (.loadImm 0 0xFF) := by decide
theorem test_decode_add_imm : decode 0b0111_0001_0000_0101#16 = .instr (.addImm 1 0x05) := by decide
theorem test_decode_load_reg : decode 0b1000_0001_0010_0000#16 = .instr (.loadReg 1 2) := by decide
theorem test_decode_or : decode 0b1000_0001_0010_0001#16 = .instr (.orReg 1 2) := by decide
theorem test_decode_and : decode 0b1000_0001_0010_0010#16 = .instr (.andReg 1 2) := by decide
theorem test_decode_xor : decode 0b1000_0001_0010_0011#16 = .instr (.xorReg 1 2) := by decide
theorem test_decode_add_reg : decode 0b1000_0001_0010_0100#16 = .instr (.addReg 1 2) := by decide
theorem test_decode_sub_reg : decode 0b1000_0001_0010_0101#16 = .instr (.subReg 1 2) := by decide
theorem test_decode_shift_right : decode 0b1000_0001_0010_0110#16 = .instr (.shiftRight 1 2) := by decide
theorem test_decode_subn_reg : decode 0b1000_0001_0010_0111#16 = .instr (.subnReg 1 2) := by decide
theorem test_decode_shift_left : decode 0b1000_0001_0010_1110#16 = .instr (.shiftLeft 1 2) := by decide
theorem test_decode_skip_neq_reg : decode 0b1001_0001_0010_0000#16 = .instr (.skipNeqReg 1 2) := by decide
theorem test_decode_load_addr : decode 0b1010_1111_1111_1110#16 = .instr (.loadAddr 0xFFE) := by decide
theorem test_decode_jump_offset : decode 0b1011_0011_0000_0000#16 = .instr (.jumpOffset 0x300) := by decide
theorem test_decode_random : decode 0b1100_0011_0000_1111#16 = .instr (.random 3 0x0F) := by decide
theorem test_decode_draw : decode 0b1101_0001_0010_0101#16 = .instr (.draw 1 2 5) := by decide
theorem test_decode_skip_key_pressed : decode 0b1110_0100_1001_1110#16 = .instr (.skipKeyPressed 4) := by decide
theorem test_decode_skip_key_not_pressed : decode 0b1110_0100_1010_0001#16 = .instr (.skipKeyNotPressed 4) := by decide
theorem test_decode_load_delay : decode 0b1111_0011_0000_0111#16 = .instr (.loadDelay 3) := by decide
theorem test_decode_wait_key : decode 0b1111_0011_0000_1010#16 = .instr (.waitKey 3) := by decide
theorem test_decode_set_delay : decode 0b1111_0101_0001_0101#16 = .instr (.setDelay 5) := by decide
theorem test_decode_set_sound : decode 0b1111_0001_0001_1000#16 = .instr (.setSound 1) := by decide
theorem test_decode_add_addr : decode 0b1111_0010_0001_1110#16 = .instr (.addAddr 2) := by decide
theorem test_decode_font_addr : decode 0b1111_0101_0010_1001#16 = .instr (.fontAddr 5) := by decide
theorem test_decode_store_bcd : decode 0b1111_1010_0011_0011#16 = .instr (.storeBcd 10) := by decide
theorem test_decode_store_regs : decode 0b1111_0001_0101_0101#16 = .instr (.storeRegs 1) := by decide
theorem test_decode_load_regs : decode 0b1111_0010_0110_0101#16 = .instr (.loadRegs 2) := by decide

/-- DE1, DE2: class 0. -/
theorem test_decode_unrecognized_class_0 :
    decode 0x0000#16 = .unrecognized 0x0000#16 ∧ decode 0x00E1#16 = .unrecognized 0x00E1#16 := by decide

/-- CF11, DE4: a nonzero low nibble. -/
theorem test_decode_unrecognized_classes_5_and_9 :
    decode 0x5121#16 = .unrecognized 0x5121#16 ∧ decode 0x9001#16 = .unrecognized 0x9001#16 := by decide

/-- AL25. -/
theorem test_decode_unrecognized_class_8 :
    decode 0x8008#16 = .unrecognized 0x8008#16 ∧ decode 0x800F#16 = .unrecognized 0x800F#16 := by decide

/-- DE4. -/
theorem test_decode_unrecognized_classes_E_and_F :
    decode 0xE0A2#16 = .unrecognized 0xE0A2#16 ∧ decode 0xF01F#16 = .unrecognized 0xF01F#16 := by decide

theorem test_opcode_table_has_34_rows : opcodeTable.length = 34 := by decide

/-- S1's word as the host's table numbers its bits. -/
theorem test_decode_table_word : decodeTableWord 16 0x60FF = some (.loadImm 0 0xFF) := by decide

/-! ### Control flow (section 2) -/

/-- S2. -/
theorem test_return :
    after (step (atPc 0x200 0x00EE { State.reset with SP := 2, STACK := State.reset.STACK.set 1 0xFFFF }))
      (fun t => (t.pc, t.SP)) = some (0xFFFF, 1) := by decide

/-- CF7. -/
theorem test_return_underflow : faultOf (step (atPc 0x200 0x00EE State.reset)) = some (.stackUnderflow 0x200) := by decide

/-- CF1. -/
theorem test_jump : after (step (atPc 0x20A 0x1204 State.reset)) State.pc = some 0x204 := by decide

/-- CF4. -/
theorem test_call_sixteenth :
    after (step (atPc 0x300 0x2400 { State.reset with SP := 15 })) (fun t => (t.pc, t.SP, t.STACK[15])) =
      some (0x400, 16, 0x302) := by decide

/-- CF5. -/
theorem test_call_overflow :
    faultOf (step (atPc 0x300 0x2400 { State.reset with SP := 16 })) = some (.stackOverflow 0x300) := by decide

/-- CF8. -/
theorem test_skip_eq_imm : after (step (atPc 0x208 0x3000 State.reset)) State.pc = some 0x20C := by decide

/-- CF9. -/
theorem test_skip_neq_imm :
    after (step (atPc 0x300 0x4312 (withV [(3, 0x12)]))) State.pc = some 0x302 ∧
      after (step (atPc 0x300 0x4313 (withV [(3, 0x12)]))) State.pc = some 0x304 := by decide

/-- CF10. -/
theorem test_skip_eq_reg : after (step (atPc 0x200 0x5120 (withV [(1, 7), (2, 7)]))) State.pc = some 0x204 := by decide

/-- CF10. -/
theorem test_skip_neq_reg : after (step (atPc 0x200 0x9120 (withV [(1, 7), (2, 7)]))) State.pc = some 0x202 := by decide

/-- CF15. -/
theorem test_jump_offset_is_not_masked :
    after (step (atPc 0x200 0xBFFF (withV [(0, 0xFF)]))) State.pc = some 0x10FE := by decide

/-! ### Arithmetic and logic (section 3) -/

/-- AL1. -/
theorem test_load_imm : after (step (atPc 0x200 0x60FF State.reset)) (fun t => (getV t 0, t.pc)) = some (0xFF, 0x202) := by decide

/-- AL2. -/
theorem test_add_imm_sets_no_flag :
    after (step (atPc 0x200 0x70FF (withV [(0, 0x05), (15, 0x55)]))) (fun t => (getV t 0, getV t 15)) = some (0x04, 0x55) := by
  decide

/-- AL4. -/
theorem test_load_reg : after (step (atPc 0x200 0x8010 (withV [(1, 0x42)]))) (getV · 0) = some 0x42 := by decide

/-- R75's example. -/
theorem test_or : after (step (atPc 0x200 0x8011 (withV [(0, 0x0F), (1, 0xF0)]))) (getV · 0) = some 0xFF := by decide

/-- R76's example. -/
theorem test_and : after (step (atPc 0x200 0x8012 (withV [(0, 0x3C), (1, 0x0F)]))) (getV · 0) = some 0x0C := by decide

/-- R77's example. -/
theorem test_xor : after (step (atPc 0x200 0x8013 (withV [(0, 0x3C), (1, 0x0F)]))) (getV · 0) = some 0x33 := by decide

/-- AL6: the result overwrites the carry. -/
theorem test_add_reg_into_vf : after (step (atPc 0x200 0x8F14 (withV [(15, 0xFF), (1, 0x01)]))) (getV · 15) = some 0x00 := by decide

/-- AL7: the operand is VF's old value. -/
theorem test_add_reg_from_vf :
    after (step (atPc 0x200 0x80F4 (withV [(0, 0x01), (15, 0xFF)]))) (fun t => (getV t 0, getV t 15)) = some (0x00, 0x01) := by
  decide

/-- AL10. -/
theorem test_sub_reg_borrows :
    after (step (atPc 0x200 0x8015 (withV [(0, 0x05), (1, 0x07)]))) (fun t => (getV t 0, getV t 15)) = some (0xFE, 0x00) := by
  decide

/-- AL11. -/
theorem test_sub_reg_of_equals :
    after (step (atPc 0x200 0x8015 (withV [(0, 0x33), (1, 0x33)]))) (fun t => (getV t 0, getV t 15)) = some (0x00, 0x01) := by
  decide

/-- AL16: V1 is not read. -/
theorem test_shift_right :
    after (step (atPc 0x200 0x8016 (withV [(0, 0xFF), (1, 0x12)]))) (fun t => (getV t 0, getV t 15)) = some (0x7F, 0x01) := by
  decide

/-- AL18. -/
theorem test_shift_right_of_vf : after (step (atPc 0x200 0x8F06 (withV [(15, 0x02)]))) (getV · 15) = some 0x01 := by decide

/-- AL14. -/
theorem test_subn_reg :
    after (step (atPc 0x200 0x8017 (withV [(0, 0x07), (1, 0x05)]))) (fun t => (getV t 0, getV t 15)) = some (0xFE, 0x00) := by
  decide

/-- AL19. -/
theorem test_shift_left :
    after (step (atPc 0x200 0x800E (withV [(0, 0x81)]))) (fun t => (getV t 0, getV t 15)) = some (0x02, 0x01) := by decide

/-- AL21. -/
theorem test_shift_left_of_vf : after (step (atPc 0x200 0x8FFE (withV [(15, 0x81)]))) (getV · 15) = some 0x02 := by decide

/-- AL22: RND = 0xA7. -/
theorem test_random :
    after (step (atPc 0x200 0xC30F { State.reset with env := { State.reset.env with inputs := [⟨[], 0xA7⟩] } })) (getV · 3) =
      some 0x07 := by decide

/-- AL23: the mask 0 writes 0, whatever RND is. -/
theorem test_random_masked_by_zero (s : State) : after (exec (.random 0 0x00) s) (getV · 0) = some 0x00 := by
  simp [exec, execRandom, writeReg, advance, setPc, setV, getV, after]

/-! ### Index register and memory (section 4) -/

/-- IM1. -/
theorem test_load_addr : after (step (atPc 0x200 0xAFFF State.reset)) State.I = some 0x0FFF := by decide

/-- IM3: the 16-bit add wraps and VF keeps its value. -/
theorem test_add_addr_wraps :
    after (step (atPc 0x200 0xF01E { withV [(0, 0x01), (15, 0x55)] with I := 0xFFFF })) (fun t => (t.I, getV t 15)) =
      some (0x0000, 0x55) := by decide

/-- IM4. -/
theorem test_add_addr_past_memory :
    after (step (atPc 0x200 0xF01E { withV [(0, 0x01)] with I := 0x0FFF })) State.I = some 0x1000 := by decide

/-- IM5. -/
theorem test_font_addr : after (step (atPc 0x200 0xF029 (withV [(0, 0xFF)]))) State.I = some 0x04FB := by decide

/-- IM8. -/
theorem test_store_bcd_at_the_end :
    after (step (atPc 0x200 0xF033 { withV [(0, 0xFF)] with I := 0x0FFD })) (fun t => memReadBytes t 0xFFD 3) =
      some [0x02, 0x05, 0x05] := by decide

/-- IM9. -/
theorem test_store_bcd_past_the_end :
    faultOf (step (atPc 0x200 0xF033 { withV [(0, 0xFF)] with I := 0x0FFE })) = some (.addressOutOfRange 0x1000) := by decide

/-- IM10. -/
theorem test_store_regs :
    after (step (atPc 0x200 0xF155 { withV [(0, 1), (1, 2)] with I := 0x0400 }))
      (fun t => (memReadBytes t 0x400 3, t.I)) = some ([1, 2, 0], 0x0400) := by decide

/-- IM16: a font byte is overwritten. -/
theorem test_store_regs_into_the_font :
    after (step (atPc 0x200 0xF055 (withV [(0, 0xAA)]))) (fun t => memReadBytes t 0 2) = some [0xAA, 0x90] := by decide

/-- IM13, the bytes being those of the default font (RS2). -/
theorem test_load_regs :
    after (step (atPc 0x200 0xF265 State.reset)) (fun t => (getV t 0, getV t 1, getV t 2, getV t 3)) =
      some (0xF0, 0x90, 0x90, 0x00) := by decide

/-- IM15. -/
theorem test_load_regs_past_the_end :
    faultOf (step (atPc 0x200 0xF065 { State.reset with I := 0x2000 })) = some (.addressOutOfRange 0x2000) := by decide

/-! ### Display (section 5) -/

/-- DS1: glyph 5 across both edges. -/
theorem test_draw_wraps :
    after (step (atPc 0x200 0xD125 { withV [(1, 62), (2, 30)] with I := 0x019 })) (fun t => (lit t, getV t 15)) =
      some ([(0, 0), (0, 1), (0, 62), (0, 63), (1, 1), (2, 0), (2, 1), (2, 62), (2, 63), (30, 0), (30, 1), (30, 62), (30, 63),
        (31, 62)], 0) := by decide

/-- DS3: a collision. -/
theorem test_draw_collides :
    after (step (atPc 0x200 0xD011 (memWrite 0x300 0xC0 { State.reset with I := 0x300, DISP := flipPixel State.reset.DISP 0 0 })))
      (fun t => (lit t, getV t 15)) = some ([(0, 1)], 1) := by decide

/-- DS11. -/
theorem test_clear_screen :
    after (step (atPc 0x200 0x00E0 { withV [(15, 0x55)] with DISP := flipPixel State.reset.DISP 3 4 }))
      (fun t => (lit t, getV t 15)) = some ([], 0x55) := by decide

/-! ### Keys and timers (section 6) -/

/-- TI1. -/
theorem test_skip_key_pressed :
    after (step (atPc 0x300 0xE49E { withV [(4, 0x07)] with KEYS := 0x0080 })) State.pc = some 0x304 := by decide

/-- TI3. -/
theorem test_skip_key_pressed_index_fault :
    faultOf (step (atPc 0x200 0xE09E { withV [(0, 0x10)] with KEYS := 0x0001 })) = some (.keyIndexOutOfRange 0x10) := by decide

/-- TI4. -/
theorem test_skip_key_not_pressed_masked :
    after (step (atPc 0x200 0xE0A1 { withV [(0, 0x10)] with
      KEYS := 0x0001, params := { defaultParams with keyIndexPolicy := .maskLowNibble } })) State.pc = some 0x202 := by decide

/-- TI5. -/
theorem test_skip_key_not_pressed_never_pressed :
    after (step (atPc 0x200 0xE0A1 { withV [(0, 0x10)] with
      KEYS := 0x0001, params := { defaultParams with keyIndexPolicy := .notPressed } })) State.pc = some 0x204 := by decide

/-- TI9. -/
theorem test_load_delay : after (step (atPc 0x200 0xF307 { State.reset with DT := 0x2A })) (getV · 3) = some 0x2A := by decide

/-- TI13: in Coupled mode the tick comes before the read. -/
theorem test_load_delay_coupled :
    after (step (atPc 0x200 0xF607 { State.reset with DT := 5, params := { defaultParams with timerMode := .coupled } }))
      (fun t => (getV t 6, t.DT)) = some (4, 4) := by decide

/-- TI14: in Coupled mode the tick comes before the write. -/
theorem test_set_delay_coupled :
    after (step (atPc 0x200 0xF515 { withV [(5, 7)] with DT := 3, params := { defaultParams with timerMode := .coupled } }))
      State.DT = some 7 := by decide

/-- TI11. -/
theorem test_set_sound : after (step (atPc 0x200 0xF118 (withV [(1, 0x1E)]))) sound = some (30, true) := by decide

/-- S4, the first cycle. -/
theorem test_wait_key :
    after (step (atPc 0x200 0xF30A State.reset)) (fun t => (t.RUN, t.pc, getV t 3)) = some (.awaitingKey 3, 0x202, 0) := by decide

/-- TI8: set_keys(bits 3 and 9) in the gap, then the lowest edge ends the wait. -/
theorem test_wait_resolves_to_the_lowest_key :
    after (step { State.reset with RUN := .awaitingKey 3, env := { State.reset.env with inputs := [⟨[.setKeys 0x0208], 0⟩] } })
      (fun t => (getV t 3, t.RUN, t.pc)) = some (3, .running, 0x200) := by decide

/-- TI7: a key held since before the wait is no edge. -/
theorem test_held_key_does_not_end_the_wait :
    after (step { State.reset with RUN := .awaitingKey 3, KEYS := 0x0080, KEY_PREV := 0x0080 }) State.RUN =
      some (.awaitingKey 3) := by decide

/-! ### Decode, errors and the host (sections 7 and 8) -/

/-- DE1. -/
theorem test_unrecognized_word :
    after (step State.reset) (fun t => (t.pc, t.env.status)) = some (0x202, .unrecognizedInstruction 0x0000) := by decide

/-- ER1: the last fetch that is in range. -/
theorem test_fetch_at_the_end : after (step { State.reset with pc := 0xFFE }) State.pc = some 0x1000 := by decide

/-- ER2. -/
theorem test_fetch_past_the_end : faultOf (step { State.reset with pc := 0xFFF }) = some (.addressOutOfRange 0x1000) := by decide

/-- TI12. -/
theorem test_tick : (sound (tick { State.reset with ST := 1 }), (tick { State.reset with ST := 1 }).DT) = ((0, false), 0) := by decide

/-- P5's image, loaded and run for one cycle. -/
theorem test_rom_load_then_call :
    after (step { State.reset with env := { State.reset.env with inputs := [⟨[.romLoad [0x22, 0x00]], 0⟩] } })
      (fun t => (t.pc, t.SP, t.STACK[0])) = some (0x200, 1, 0x202) := by decide

/-- The host's check: a word placed in the reset state is fetched by the very next step. -/
theorem test_with_fetch_word : after (step (State.reset.withFetchWord 16 0xA123)) State.I = some 0x123 := by decide

/-! ### Witnesses: states and operands that meet the hypotheses of each statement, at the ends of their ranges -/

section Witnesses

open Sys2Proof.Claims

/-- The reset state in Coupled mode. -/
def coupledReset : State := State.construct { defaultParams with timerMode := .coupled }

/-- The reset state with one scheduled gap. -/
def withGap (ops : List HostOp) (s : State) : State := { s with env := { s.env with inputs := [⟨ops, 0x5A⟩] } }

/-- A result is a next state. -/
def isNext (r : Result) : Bool := (after r fun _ => ()).isSome

theorem isNext_iff (r : Result) : isNext r = true ↔ ∃ t, r = .next t := by
  cases r <;> simp [isNext, after]

theorem witness_DecodeInvertsEncode : (Instr.draw 15 15 15).wellFormed = true ∧ (Instr.draw 0 0 0).wellFormed = true := by decide

theorem witness_EncodeInvertsDecode : ∃ w i, decode w = .instr i := ⟨0xDFFF#16, .draw 15 15 15, by decide⟩

theorem witness_StepRunsTheDecodedInstruction :
    State.reset.env.inputs = [] ∧
      ∃ s t i, applyHostOps (gapOps s) s = .next t ∧ t.RUN = .running ∧ t.pc.toNat + 1 < 4096 ∧ decode (wordAtPc t) = .instr i :=
  ⟨rfl, withGap [.tick, .setKeys 0x0001] (atPc 0xFFE 0x00E0 State.reset), _, .clearScreen, rfl, by decide, by decide, by decide⟩

theorem witness_UnrecognizedWordCompletesAndIsReported :
    { State.reset with pc := 0xFFE }.RUN = .running ∧ { State.reset with pc := 0xFFE }.pc.toNat + 1 < 4096 ∧
      ∀ i, decode (wordAtPc { State.reset with pc := 0xFFE }) ≠ .instr i := by
  refine ⟨rfl, by decide, fun i h => ?_⟩
  have e : decode (wordAtPc { State.reset with pc := 0xFFE }) = .unrecognized 0x0000#16 := by decide
  rw [e] at h; cases h

theorem witness_FetchOutOfRangeIsFatal :
    { State.reset with pc := 0xFFF }.RUN = .running ∧ 4096 ≤ { State.reset with pc := 0xFFF }.pc.toNat + 1 := by decide

theorem witness_WaitCycle_edges (s : State) (hk : s.KEYS = 0x8200) (hp : s.KEY_PREV = 0x0001) :
    (Edge s 9 ∧ ∀ j < (9 : Reg), ¬ Edge s j) ∧ Edge s 15 := by
  simp only [Edge, hk, hp]; decide

theorem witness_WaitCycle_lowest_and_highest :
    (∃ s : State, s.RUN = .awaitingKey 0 ∧ Edge s 0 ∧ ∀ j < (0 : Reg), ¬ Edge s j) ∧
      ∃ s : State, s.RUN = .awaitingKey 15 ∧ Edge s 15 ∧ ∀ j < (15 : Reg), ¬ Edge s j :=
  ⟨⟨{ State.reset with RUN := .awaitingKey 0, KEYS := 0x0001 }, rfl, by simp only [Edge]; decide⟩,
    ⟨{ State.reset with RUN := .awaitingKey 15, KEYS := 0x8000 }, rfl, by simp only [Edge]; decide⟩⟩

theorem witness_WaitCycle_no_edge :
    ∃ s : State, s.RUN = .awaitingKey 3 ∧ ∀ k, ¬ Edge s k :=
  ⟨{ State.reset with RUN := .awaitingKey 3, KEYS := 0x0080, KEY_PREV := 0x0080 }, rfl, by simp only [Edge]; decide⟩

theorem witness_RunChangesOnlyByWaitKeyAndEdge :
    isNext (cycle State.reset) = true ∧ isNext (cycle (atPc 0x200 0xF30A State.reset)) = true ∧
      isNext (cycle { State.reset with RUN := .awaitingKey 3, KEYS := 0x0080 }) = true := by decide

theorem witness_FatalErrorIsRaisedAgain :
    ∃ s u e, ∃ ops : List HostOp, cycle s = .fault e ∧ (∀ op ∈ ops, op = .tick ∨ ∃ k, op = .setKeys k) ∧
      applyHostOps ops s = .next u :=
  ⟨{ State.reset with pc := 0xFFF }, _, .addressOutOfRange 0x1000, [.tick, .setKeys 0x0001], rfl, by simp, rfl⟩

theorem witness_NoInstructionIsRefused : step (withGap [.tick] coupledReset) = .refused .tickInCoupledMode := by rfl

theorem witness_CompletedStepSamplesKeysAndReports :
    isNext (step (withGap [.setKeys 0x0208] State.reset)) = true ∧ isNext (step (atPc 0x200 0x00E0 State.reset)) = true := by decide

theorem witness_CoupledMode :
    (∀ w, (atPc 0x200 w coupledReset).params.timerMode = .coupled ∧ (atPc 0x200 w coupledReset).RUN = .running) ∧
      [0x0000#16, 0xF515#16, 0xF118#16, 0xF307#16].all (fun w => isNext (cycle (atPc 0x200 w coupledReset))) = true :=
  ⟨fun _ => ⟨rfl, rfl⟩, by decide⟩

theorem witness_CoupledMode_words :
    decode (wordAtPc (atPc 0x200 0xF515 coupledReset)) = .instr (.setDelay 5) ∧
      decode (wordAtPc (atPc 0x200 0xF118 coupledReset)) = .instr (.setSound 1) ∧
      decode (wordAtPc (atPc 0x200 0xF307 coupledReset)) = .instr (.loadDelay 3) := by decide

theorem witness_CoupledMode_waiting :
    { coupledReset with RUN := .awaitingKey 3 }.RUN ≠ .running ∧
      isNext (cycle { coupledReset with RUN := .awaitingKey 3 }) = true := by decide

theorem witness_DecoupledCyclesDoNotTick :
    State.reset.params.timerMode = .decoupled ∧ isNext (cycle State.reset) = true ∧
      isNext (cycle (atPc 0x200 0xF515 State.reset)) = true ∧ isNext (cycle (atPc 0x200 0xF118 State.reset)) = true := by decide

theorem witness_HaltLoopChangesNothing :
    HaltLoop (atPc 0xFFE 0x1FFE State.reset) ∧ (atPc 0xFFE 0x1FFE State.reset).params.timerMode = .decoupled :=
  ⟨⟨by decide, by decide, 0xFFE, by decide, by decide⟩, by decide⟩

theorem witness_HostOperationsTouchOnlyTheirOwnState :
    isNext (applyHostOp (.setKeys 0xFFFF) State.reset) = true ∧ isNext (applyHostOp .tick State.reset) = true ∧
      isNext (applyHostOp (.romLoad []) State.reset) = true ∧ isNext (applyHostOp .reset coupledReset) = true := by decide

theorem witness_RomLoadCopiesTheImage :
    (List.replicate 3584 0xFF#8).length ≤ 3584 ∧ State.reset.env.fresh = true ∧ 3584 < (List.replicate 3585 0xFF#8).length ∧
      (complete .ok State.reset).env.fresh = false := by
  simp only [List.length_replicate]; decide

theorem witness_JumpSetsPc : (0x200 : Addr12).toNat = State.reset.pc.toNat := by decide

theorem witness_ReturnPopsTheEntry :
    (({ State.reset with SP := 1 } : State).SP.val = (0 : Fin 16).val + 1) ∧
      (({ State.reset with SP := 16 } : State).SP.val = (15 : Fin 16).val + 1) ∧ State.reset.SP.val = 0 := by decide

theorem witness_CallPushesTheReturnAddress :
    State.reset.SP.val = (0 : Fin 16).val ∧ ({ State.reset with SP := 15 } : State).SP.val = (15 : Fin 16).val ∧
      ({ State.reset with SP := 16 } : State).SP.val = 16 := by decide

theorem witness_ReturnAfterCallResumes :
    ({ State.reset with SP := 15 } : State).SP.val < 16 ∧ (0 : Fin 16).val ≠ ({ State.reset with SP := 15 } : State).SP.val := by
  decide

theorem witness_flag_writing_arithmetic : (14 : Reg) ≠ 15 ∧ (0 : Reg) ≠ 14 ∧ (0 : Reg) ≠ 15 := by decide

theorem witness_RandomMasksTheRandomByte : (withGap [] State.reset).env.inputs = ⟨[], 0x5A⟩ :: [] := rfl

theorem witness_StoreBcdStoresTheDigits :
    ({ State.reset with I := 0xFFD } : State).I.toNat + 2 < 4096 ∧ 4096 ≤ ({ State.reset with I := 0xFFE } : State).I.toNat + 2 := by
  decide

theorem witness_StoreRegs_and_LoadRegs :
    ({ State.reset with I := 0xFF0 } : State).I.toNat + (15 : Reg).val < 4096 ∧
      4096 ≤ ({ State.reset with I := 0xFF1 } : State).I.toNat + (15 : Reg).val ∧
      ({ State.reset with I := 0xFFF } : State).I.toNat + (0 : Reg).val < 4096 ∧
      4096 ≤ ({ State.reset with I := 0x1000 } : State).I.toNat + (0 : Reg).val := by decide

theorem witness_StoredRegistersLoadBack :
    ∃ s t u : State, exec (.storeRegs 2) s = .next t ∧ u.MEM = t.MEM ∧ u.I = t.I ∧ u.params = t.params ∧ u.V ≠ t.V :=
  ⟨{ withV [(0, 1), (1, 2), (2, 3)] with I := 0xFFD }, _, setV 0 0 (memWriteBytes 0xFFD [1, 2, 3] { State.reset with I := 0xFFD }),
    rfl, by decide, by decide, by decide, by decide⟩

theorem witness_StoredWordIsFetchedNext :
    ∃ s t : State, 1 ≤ (1 : Reg).val ∧ s.I.toNat = s.pc.toNat + 2 ∧ exec (.storeRegs 1) s = .next t :=
  ⟨{ State.reset with I := 0x202 }, _, by decide, by decide, rfl⟩

theorem witness_Draw_ranges :
    (Instr.draw 0 1 15).wellFormed = true ∧ ({ State.reset with I := 0xFF1 } : State).I.toNat + 15 - 1 < 4096 ∧
      4096 ≤ ({ State.reset with I := 0xFF2 } : State).I.toNat + 15 - 1 ∧
      ({ State.reset with I := 0xFFF } : State).I.toNat + 1 - 1 < 4096 ∧
      4096 ≤ ({ State.reset with I := 0x1000 } : State).I.toNat + 1 - 1 := by decide

/-- Glyph 0's corner lies under the sprite and wraps; row 5 of a five-row sprite does not. -/
theorem witness_Draw_pixels :
    UnderSprite (withV [(0, 63), (1, 31)]) 0 1 2 0 63 ∧ UnderSprite (withV [(0, 63), (1, 31)]) 0 1 1 31 2 ∧
      ¬ UnderSprite State.reset 0 1 5 5 0 := by
  refine ⟨⟨1, 0, by decide⟩, ⟨0, 3, by decide⟩, ?_⟩
  rintro ⟨r, c, hr, -, -, h, -⟩
  have e : (State.reset.V[(1 : Reg).val]).toNat = 0 := by rfl
  rw [e] at h
  simp at h
  omega

theorem witness_DrawingTwiceRestoresTheDisplay :
    ∃ s t u : State, (Instr.draw 0 1 5).wellFormed = true ∧ exec (.draw 0 1 5) s = .next t ∧ u.DISP = t.DISP ∧ u.MEM = t.MEM ∧
      u.params = t.params ∧ u.I = t.I ∧ u.V[(0 : Reg).val] = s.V[(0 : Reg).val] ∧ u.V[(1 : Reg).val] = s.V[(1 : Reg).val] ∧
      ∀ R C, UnderSprite s 0 1 5 R C → s.DISP[R.val][C.val] = false :=
  ⟨State.reset, _, _, by decide, rfl, rfl, rfl, rfl, rfl, rfl, rfl, fun R C _ => by
    simp [State.reset, State.construct]⟩

theorem witness_KeySkipsReadTheLevel :
    ((withV [(0, 15)]).V[(0 : Reg).val]).toNat < 16 ∧ 16 ≤ ((withV [(0, 16)]).V[(0 : Reg).val]).toNat ∧
      (withV [(0, 16)]).params.keyIndexPolicy = .fault ∧
      ∀ p : KeyIndexPolicy, { withV [(0, 16)] with params := { defaultParams with keyIndexPolicy := p } }.params.keyIndexPolicy = p :=
  ⟨by decide, by decide, by decide, fun _ => rfl⟩

theorem witness_SetSoundWritesTheSoundTimer : ∀ x, Instr.loadDelay 0 ≠ .setSound x := by simp

theorem witness_WaitKeyEntersTheWait :
    isNext (cycle (atPc 0xFFE 0xFF0A State.reset)) = true ∧ (atPc 0xFFE 0xFF0A State.reset).RUN = .running ∧
      decode (wordAtPc (atPc 0xFFE 0xFF0A State.reset)) = .instr (.waitKey 15) := by decide

theorem witness_frames :
    ∀ i ∈ ([.jump 0xFFF, .jumpOffset 0xFFF, .call 0, .skipEqImm 0 0, .skipNeqImm 0 0, .skipEqReg 0 1, .skipNeqReg 0 1,
      .skipKeyPressed 0, .skipKeyNotPressed 0, .addReg 0 1, .draw 0 1 15, .storeBcd 0, .storeRegs 15, .loadRegs 15, .waitKey 0] : List Instr),
    isNext (exec i State.reset) = true := by decide

theorem witness_frames_return : isNext (exec .ret { State.reset with SP := 1 }) = true := by decide

theorem witness_HiddenInputsReachOnlyTheirReaders :
    (∀ x kk, Instr.ret ≠ .random x kk) ∧ ∀ x, Instr.ret ≠ .loadDelay x ∧ Instr.ret ≠ .setDelay x := by simp

/-- A state with a listed byte, a stacked address and `pc` at their bounds has the invariant and steps. -/
theorem witness_StepKeepsTheInvariant :
    State.reset.Inv ∧ isNext (step State.reset) = true ∧
      (atPc 0xFFE 0x00EE { State.reset with SP := 1, STACK := State.reset.STACK.set 0 0x1000 }).Inv ∧
      isNext (step (atPc 0xFFE 0x00EE { State.reset with SP := 1, STACK := State.reset.STACK.set 0 0x1000 })) = true ∧
      { State.reset with pc := 0x10FE }.Inv := by decide

theorem witness_CanonicalMemoryIsDeterminedByItsBytes :
    Memory.wf defaultFont [] ∧ Memory.wf defaultFont [(0x000, 0x00), (0x04F, 0xFF), (0xFFF, 0x01)] := by decide

end Witnesses

end Sys2Proof.Tests
end

/-! PROOFS. The control-flow instruction `return` (40_control_flow.md R62). -/

namespace Sys2Proof.Machine

/-! ### The word of return -/

theorem decodeClass8_ne_ret (w : Word) : decodeClass8 w ≠ .instr .ret := by
  unfold decodeClass8; split <;> simp

theorem decodeClassE_ne_ret (w : Word) : decodeClassE w ≠ .instr .ret := by
  unfold decodeClassE; split <;> simp

theorem decodeClassF_ne_ret (w : Word) : decodeClassF w ≠ .instr .ret := by
  unfold decodeClassF; split <;> simp

/-- Only class 0 holds `return`, and there only the one word (30_encoding.md R49). -/
theorem decode_eq_ret_iff (w : Word) : decode w = .instr .ret ↔ w = 0x00EE#16 := by
  refine ⟨fun h => by_contra fun hw => absurd h ?_, by rintro rfl; decide⟩
  rw [decode, if_neg hw]
  split
  case h_1 | h_6 | h_10 => split <;> simp
  case h_9 => exact decodeClass8_ne_ret w
  case h_15 => exact decodeClassE_ne_ret w
  case h_16 => exact decodeClassF_ne_ret w
  all_goals simp

/-! ### Its execution -/

theorem exec_ret (s : State) : exec .ret s = popReturn s fun entry t => .next (setPc entry t) := rfl

/-- With `j + 1` addresses stacked, entry `j` goes to `pc` and stays in its slot (R62). -/
theorem exec_ret_of_stacked {s : State} {j : Fin 16} (h : s.SP.val = j.val + 1) :
    exec .ret s = .next { s with pc := s.STACK[j.val], SP := j.castSucc } := by
  rcases popReturn_cases s fun entry t => .next (setPc entry t) with ⟨k, hk, hpop⟩ | ⟨h0, -⟩
  · obtain rfl : k = j := Fin.succ_injective _ (Fin.ext (hk ▸ h))
    rw [exec_ret, hpop]; rfl
  · simp [h0] at h

theorem exec_ret_of_empty {s : State} (h : s.SP.val = 0) : exec .ret s = .fault (.stackUnderflow s.pc) := by
  rcases popReturn_cases s fun entry t => .next (setPc entry t) with ⟨k, hk, -⟩ | ⟨-, hpop⟩
  · simp [hk] at h
  · rw [exec_ret, hpop]

/-- Settles O23: the word by the decoder's classes, the execution by what a pop can do. -/
theorem returnPopsTheEntry : Obligations.ReturnPopsTheEntry := by
  refine ⟨fun w => ?_, fun s => ⟨fun _ => exec_ret_of_stacked, exec_ret_of_empty⟩⟩
  have hmask : w &&& 0xFFFF#16 = w := BitVec.and_allOnes
  rw [hmask, decode_eq_ret_iff]

end Sys2Proof.Machine

/-! PROOFS. The timer unit: a tick and the sound output (60_exceptions.md R114, R121). -/

namespace Sys2Proof.Machine

/-! ### A tick -/

/-- The spec's "if t > 0 then t <- t - 1": stopping at 0 is the natural numbers' subtraction (R114). -/
theorem tickTimer_toNat_eq_ite (t : Byte) :
    (tickTimer t).toNat = if t.toNat > 0 then t.toNat - 1 else 0 := by
  rw [tickTimer_toNat]
  split <;> omega

/-- A tick writes the two timers and nothing else (R114). -/
theorem tick_eq (s : State) : tick s = { s with DT := tickTimer s.DT, ST := tickTimer s.ST } := rfl

/-- Settles O18: each timer by the law of one timer, the frame by what a tick writes. -/
theorem tickDecrementsNonzeroTimers : Obligations.TickDecrementsNonzeroTimers := fun s =>
  ⟨tickTimer_toNat_eq_ite s.DT, tickTimer_toNat_eq_ite s.ST, tick_eq s⟩

/-! ### The sound output -/

@[simp] theorem sound_fst (s : State) : (sound s).1 = s.ST := rfl

/-- The output sounds exactly while the sound timer's count is not zero (R121). -/
theorem sound_snd_eq_true_iff (s : State) : (sound s).2 = true ↔ s.ST.toNat ≠ 0 := by
  have hzero : s.ST = 0x00#8 ↔ s.ST.toNat = 0 := BitVec.toNat_inj.symm
  simp only [sound, bne_iff_ne, ne_eq, hzero]

/-- Settles O48: the value and the condition are the two components of the output. -/
theorem soundOutputIsTheSoundTimer : Obligations.SoundOutputIsTheSoundTimer := fun s =>
  ⟨sound_fst s, sound_snd_eq_true_iff s⟩

end Sys2Proof.Machine

/-! PROOFS. The decoder and the encoder invert each other (30_encoding.md R48 to R50). -/

namespace Sys2Proof

/-! ### A word is put together again from its class and its fields -/

theorem encodeXYN_fields {c : BitVec 4} {w : Word} (hc : fieldC w = c) :
    encodeXYN c (fieldX w) (fieldY w) (fieldN w) = w := by
  obtain ⟨c', x, y, n, rfl⟩ := exists_nibbles w
  rw [fieldC_nibbles] at hc
  simp [encodeXYN_eq, hc]

theorem encodeXKK_fields {c : BitVec 4} {w : Word} (hc : fieldC w = c) :
    encodeXKK c (fieldX w) (fieldKK w) = w := by
  obtain ⟨c', x, y, n, rfl⟩ := exists_nibbles w
  rw [fieldC_nibbles] at hc
  rw [fieldX_nibbles, fieldKK_nibbles, hc]
  rfl

theorem encodeNNN_fields {c : BitVec 4} {w : Word} (hc : fieldC w = c) : encodeNNN c (fieldNNN w) = w := by
  apply BitVec.eq_of_getLsbD_eq; intro i hi
  rw [encodeNNN, BitVec.getLsbD_append (x := c) (y := fieldNNN w)]
  by_cases h : i < 12
  · simp [h, fieldNNN]
  · have h1 : i - 12 < 4 := by omega
    have h2 : 12 + (i - 12) = i := by omega
    simp [h, ← hc, fieldC, h1, h2]

/-! ### Decoding a word of each class -/

/-- Decoding the word of a well-formed instruction gives it back: the class chooses the branch, and where a class holds several
instructions the low nibble or the low byte does. -/
theorem decode_encode {i : Instr} (hi : i.wellFormed = true) : decode (encode i) = .instr i := by
  cases i with
  | clearScreen | ret => decide
  | jump nnn | call nnn | loadAddr nnn | jumpOffset nnn => simp [decode, encode]
  | skipEqImm x kk | skipNeqImm x kk | loadImm x kk | addImm x kk | random x kk => simp [decode, encode]
  | skipEqReg x y | skipNeqReg x y => simp [decode, encode]
  | loadReg x y | orReg x y | andReg x y | xorReg x y | addReg x y | subReg x y | shiftRight x y | subnReg x y
  | shiftLeft x y => simp [decode, encode, decodeClass8]
  | draw x y n =>
    have hn : n < 16 := by simpa [Instr.wellFormed] using hi
    simp [decode, encode, Nat.mod_eq_of_lt hn]
  | skipKeyPressed x | skipKeyNotPressed x => simp [decode, encode, decodeClassE]
  | loadDelay x | waitKey x | setDelay x | setSound x | addAddr x | fontAddr x | storeBcd x | storeRegs x | loadRegs x =>
    simp [decode, encode, decodeClassF]

/-- Settles O1, by cases on the instruction (`decode_encode`). -/
theorem decodeInvertsEncode : Obligations.DecodeInvertsEncode := fun _ => decode_encode

/-- The instruction is well-formed and its word is `w`: what decoding `w` to it has to mean. -/
def IsWordOf (w : Word) (i : Instr) : Prop := i.wellFormed = true ∧ encode i = w

theorem isWordOf_of_decodeClass8 {w : Word} {i : Instr} (hc : fieldC w = 0x8#4) (h : decodeClass8 w = .instr i) :
    IsWordOf w i := by
  have hw := encodeXYN_fields hc
  unfold decodeClass8 at h
  split at h <;> cases h <;> exact ⟨rfl, by rwa [‹fieldN w = _›] at hw⟩

theorem isWordOf_of_decodeClassE {w : Word} {i : Instr} (hc : fieldC w = 0xE#4) (h : decodeClassE w = .instr i) :
    IsWordOf w i := by
  have hw := encodeXKK_fields hc
  unfold decodeClassE at h
  split at h <;> cases h <;> exact ⟨rfl, by rwa [‹fieldKK w = _›] at hw⟩

theorem isWordOf_of_decodeClassF {w : Word} {i : Instr} (hc : fieldC w = 0xF#4) (h : decodeClassF w = .instr i) :
    IsWordOf w i := by
  have hw := encodeXKK_fields hc
  unfold decodeClassF at h
  split at h <;> cases h <;> exact ⟨rfl, by rwa [‹fieldKK w = _›] at hw⟩

theorem isWordOf_of_decode {w : Word} {i : Instr} (h : decode w = .instr i) : IsWordOf w i := by
  unfold decode at h
  split at h
  case h_1 =>
    split at h
    · cases h; exact ⟨rfl, ‹w = 0x00E0#16›.symm⟩
    · split at h <;> cases h
      exact ⟨rfl, ‹w = 0x00EE#16›.symm⟩
  case h_2 hc | h_3 hc | h_11 hc | h_12 hc => cases h; exact ⟨rfl, encodeNNN_fields hc⟩
  case h_4 hc | h_5 hc | h_7 hc | h_8 hc | h_13 hc => cases h; exact ⟨rfl, encodeXKK_fields hc⟩
  case h_6 hc | h_10 hc =>
    split at h <;> cases h
    exact ⟨rfl, by simpa [encode, *] using encodeXYN_fields hc⟩
  case h_9 hc => exact isWordOf_of_decodeClass8 hc h
  case h_14 hc =>
    cases h
    exact ⟨decide_eq_true (fieldN w).isLt, by simpa [encode] using encodeXYN_fields hc⟩
  case h_15 hc => exact isWordOf_of_decodeClassE hc h
  case h_16 =>
    have hc : fieldC w = 0xF#4 := by simp only [imp_false] at *; bv_omega
    exact isWordOf_of_decodeClassF hc h

/-- Settles O2, branch by branch of the decoder (`isWordOf_of_decode`). -/
theorem encodeInvertsDecode : Obligations.EncodeInvertsDecode := fun _ _ => isWordOf_of_decode

theorem decode_eq_instr_iff {w : Word} {i : Instr} (hi : i.wellFormed = true) : decode w = .instr i ↔ encode i = w :=
  ⟨fun h => (isWordOf_of_decode h).2, fun h => h ▸ decode_encode hi⟩

end Sys2Proof

/-! PROOFS. The opcode map: a word selects a row exactly when it decodes to the row's instruction (30_encoding.md R49), and
the words that select none (R51). -/

namespace Sys2Proof

open Sys2Proof.Claims

/-! ### The fields as numbers are the fields as bits -/

theorem xOf_eq_fieldX (w : Word) : xOf w = fieldX w := by
  apply Fin.ext
  simp [xOf, fieldX, Nat.shiftRight_eq_div_pow]

theorem yOf_eq_fieldY (w : Word) : yOf w = fieldY w := by
  apply Fin.ext
  simp [yOf, fieldY, Nat.shiftRight_eq_div_pow]

theorem kkOf_eq_fieldKK (w : Word) : kkOf w = fieldKK w := by
  apply BitVec.eq_of_toNat_eq
  simp [kkOf, fieldKK, BitVec.extractLsb'_toNat]

theorem nnnOf_eq_fieldNNN (w : Word) : nnnOf w = fieldNNN w := by
  apply BitVec.eq_of_toNat_eq
  simp [nnnOf, fieldNNN, BitVec.extractLsb'_toNat]

theorem nOf_eq_fieldN (w : Word) : nOf w = (fieldN w).toNat := by
  simp [nOf, fieldN, BitVec.extractLsb'_toNat]

theorem toNat_div_4096 (w : Word) : w.toNat / 4096 = (fieldC w).toNat := by
  have := w.isLt
  simp [fieldC, BitVec.extractLsb'_toNat, Nat.shiftRight_eq_div_pow]; omega

/-! ### A row selects the words of its class, and of its low nibble or byte where its mask asks for them -/

theorem and_F000_eq_iff {w : Word} {c : BitVec 4} : w &&& 0xF000#16 = nibbles c 0 0 0 ↔ fieldC w = c := by
  obtain ⟨c', x, y, n, rfl⟩ := exists_nibbles w
  simp [nibbles_and_F000, nibbles_eq_iff]

theorem and_F00F_eq_iff {w : Word} {c n : BitVec 4} : w &&& 0xF00F#16 = nibbles c 0 0 n ↔ fieldC w = c ∧ fieldN w = n := by
  obtain ⟨c', x, y, n', rfl⟩ := exists_nibbles w
  simp [nibbles_and_F00F, nibbles_eq_iff]

theorem and_F0FF_eq_iff {w : Word} {c : BitVec 4} {kk : Byte} :
    w &&& 0xF0FF#16 = encodeXKK c 0 kk ↔ fieldC w = c ∧ fieldKK w = kk := by
  obtain ⟨c', x, y, n, rfl⟩ := exists_nibbles w
  rw [nibbles_and_F0FF]
  constructor
  · intro h
    exact ⟨by simpa using congrArg fieldC h, by simpa using congrArg fieldKK h⟩
  · rintro ⟨hc, hk⟩
    rw [← hc, ← hk, fieldC_nibbles, fieldKK_nibbles]
    rfl

theorem encodeNNN_nnnOf_eq_iff {c : BitVec 4} {w : Word} : encodeNNN c (nnnOf w) = w ↔ fieldC w = c := by
  rw [nnnOf_eq_fieldNNN]
  exact ⟨fun h => h ▸ fieldC_encodeNNN .., encodeNNN_fields⟩

theorem encodeXKK_kkOf_eq_iff {c : BitVec 4} {w : Word} : encodeXKK c (xOf w) (kkOf w) = w ↔ fieldC w = c := by
  rw [xOf_eq_fieldX, kkOf_eq_fieldKK]
  exact ⟨fun h => h ▸ fieldC_encodeXKK .., encodeXKK_fields⟩

theorem encodeXYN_nOf_eq_iff {c : BitVec 4} {w : Word} :
    encodeXYN c (xOf w) (yOf w) (BitVec.ofNat 4 (nOf w)) = w ↔ fieldC w = c := by
  rw [xOf_eq_fieldX, yOf_eq_fieldY, nOf_eq_fieldN, BitVec.ofNat_toNat, BitVec.setWidth_eq]
  exact ⟨fun h => h ▸ fieldC_encodeXYN .., encodeXYN_fields⟩

theorem encodeXYN_eq_iff {c n : BitVec 4} {w : Word} :
    encodeXYN c (xOf w) (yOf w) n = w ↔ fieldC w = c ∧ fieldN w = n := by
  rw [xOf_eq_fieldX, yOf_eq_fieldY]
  exact ⟨fun h => ⟨h ▸ fieldC_encodeXYN .., h ▸ fieldN_encodeXYN ..⟩, fun ⟨hc, hn⟩ => hn ▸ encodeXYN_fields hc⟩

theorem encodeXKK_eq_iff {c : BitVec 4} {kk : Byte} {w : Word} :
    encodeXKK c (xOf w) kk = w ↔ fieldC w = c ∧ fieldKK w = kk := by
  rw [xOf_eq_fieldX]
  exact ⟨fun h => ⟨h ▸ fieldC_encodeXKK .., h ▸ fieldKK_encodeXKK ..⟩, fun ⟨hc, hk⟩ => hk ▸ encodeXKK_fields hc⟩

/-! ### The five kinds of rows -/

/-- Rows of a single word. -/
theorem selects_word {v : Word} {i : Instr} (hi : i.wellFormed = true) (hv : encode i = v) :
    Selects 0xFFFF#16 v fun _ => i := fun w => by
  have hmask : w &&& 0xFFFF#16 = w := BitVec.and_allOnes
  rw [decode_eq_instr_iff hi, hmask, hv, eq_comm]

/-- Rows that fix the class only, format NNN. -/
theorem selects_NNN (c : BitVec 4) {f : Addr12 → Instr} (hf : ∀ a, (f a).wellFormed = true)
    (he : ∀ a, encode (f a) = encodeNNN c a) : Selects 0xF000#16 (nibbles c 0 0 0) fun w => f (nnnOf w) := fun w => by
  rw [decode_eq_instr_iff (hf _), he, encodeNNN_nnnOf_eq_iff, and_F000_eq_iff]

/-- Rows that fix the class only, format XKK. -/
theorem selects_XKK (c : BitVec 4) {f : Reg → Byte → Instr} (hf : ∀ x kk, (f x kk).wellFormed = true)
    (he : ∀ x kk, encode (f x kk) = encodeXKK c x kk) :
    Selects 0xF000#16 (nibbles c 0 0 0) fun w => f (xOf w) (kkOf w) := fun w => by
  rw [decode_eq_instr_iff (hf _ _), he, encodeXKK_kkOf_eq_iff, and_F000_eq_iff]

/-- Rows that fix the class and the low nibble, format XYS. -/
theorem selects_XYS (c n : BitVec 4) {f : Reg → Reg → Instr} (hf : ∀ x y, (f x y).wellFormed = true)
    (he : ∀ x y, encode (f x y) = encodeXYN c x y n) :
    Selects 0xF00F#16 (nibbles c 0 0 n) fun w => f (xOf w) (yOf w) := fun w => by
  rw [decode_eq_instr_iff (hf _ _), he, encodeXYN_eq_iff, and_F00F_eq_iff]

/-- Rows that fix the class and the low byte, format XSS. -/
theorem selects_XSS (c : BitVec 4) (kk : Byte) {f : Reg → Instr} (hf : ∀ x, (f x).wellFormed = true)
    (he : ∀ x, encode (f x) = encodeXKK c x kk) :
    Selects 0xF0FF#16 (encodeXKK c 0 kk) fun w => f (xOf w) := fun w => by
  rw [decode_eq_instr_iff (hf _), he, encodeXKK_eq_iff, and_F0FF_eq_iff]

/-- The row of draw fixes the class only, format XYN. -/
theorem selects_draw : Selects 0xF000#16 0xD000#16 fun w => .draw (xOf w) (yOf w) (nOf w) := fun w => by
  have hn : (Instr.draw (xOf w) (yOf w) (nOf w)).wellFormed = true := decide_eq_true (Nat.mod_lt _ (by decide))
  rw [decode_eq_instr_iff hn, encode, encodeXYN_nOf_eq_iff]
  exact and_F000_eq_iff.symm

/-! ### The rows that the statements about single instructions name -/

theorem selects_clearScreen : Selects 0xFFFF#16 0x00E0#16 fun _ => .clearScreen := selects_word rfl rfl
theorem selects_jump : Selects 0xF000#16 0x1000#16 fun w => .jump (nnnOf w) :=
  selects_NNN 0x1 (fun _ => rfl) fun _ => rfl
theorem selects_skipEqImm : Selects 0xF000#16 0x3000#16 fun w => .skipEqImm (xOf w) (kkOf w) :=
  selects_XKK 0x3 (fun _ _ => rfl) fun _ _ => rfl
theorem selects_skipNeqImm : Selects 0xF000#16 0x4000#16 fun w => .skipNeqImm (xOf w) (kkOf w) :=
  selects_XKK 0x4 (fun _ _ => rfl) fun _ _ => rfl
theorem selects_loadImm : Selects 0xF000#16 0x6000#16 fun w => .loadImm (xOf w) (kkOf w) :=
  selects_XKK 0x6 (fun _ _ => rfl) fun _ _ => rfl
theorem selects_addImm : Selects 0xF000#16 0x7000#16 fun w => .addImm (xOf w) (kkOf w) :=
  selects_XKK 0x7 (fun _ _ => rfl) fun _ _ => rfl
theorem selects_loadReg : Selects 0xF00F#16 0x8000#16 fun w => .loadReg (xOf w) (yOf w) :=
  selects_XYS 0x8 0x0 (fun _ _ => rfl) fun _ _ => rfl
theorem selects_orReg : Selects 0xF00F#16 0x8001#16 fun w => .orReg (xOf w) (yOf w) :=
  selects_XYS 0x8 0x1 (fun _ _ => rfl) fun _ _ => rfl
theorem selects_andReg : Selects 0xF00F#16 0x8002#16 fun w => .andReg (xOf w) (yOf w) :=
  selects_XYS 0x8 0x2 (fun _ _ => rfl) fun _ _ => rfl
theorem selects_xorReg : Selects 0xF00F#16 0x8003#16 fun w => .xorReg (xOf w) (yOf w) :=
  selects_XYS 0x8 0x3 (fun _ _ => rfl) fun _ _ => rfl
theorem selects_loadAddr : Selects 0xF000#16 0xA000#16 fun w => .loadAddr (nnnOf w) :=
  selects_NNN 0xA (fun _ => rfl) fun _ => rfl
theorem selects_setSound : Selects 0xF0FF#16 0xF018#16 fun w => .setSound (xOf w) :=
  selects_XSS 0xF 0x18 (fun _ => rfl) fun _ => rfl
theorem selects_fontAddr : Selects 0xF0FF#16 0xF029#16 fun w => .fontAddr (xOf w) :=
  selects_XSS 0xF 0x29 (fun _ => rfl) fun _ => rfl

/-- Settles O3: each row by the kind of its mask. -/
theorem opcodeMapSelectsEveryInstruction : Obligations.OpcodeMapSelectsEveryInstruction :=
  ⟨selects_clearScreen, selects_word rfl rfl, selects_jump, selects_NNN 0x2 (fun _ => rfl) fun _ => rfl,
    selects_skipEqImm, selects_skipNeqImm, selects_XYS 0x5 0x0 (fun _ _ => rfl) fun _ _ => rfl, selects_loadImm,
    selects_addImm, selects_loadReg, selects_orReg, selects_andReg, selects_xorReg,
    selects_XYS 0x8 0x4 (fun _ _ => rfl) fun _ _ => rfl, selects_XYS 0x8 0x5 (fun _ _ => rfl) fun _ _ => rfl,
    selects_XYS 0x8 0x6 (fun _ _ => rfl) fun _ _ => rfl, selects_XYS 0x8 0x7 (fun _ _ => rfl) fun _ _ => rfl,
    selects_XYS 0x8 0xE (fun _ _ => rfl) fun _ _ => rfl, selects_XYS 0x9 0x0 (fun _ _ => rfl) fun _ _ => rfl,
    selects_loadAddr, selects_NNN 0xB (fun _ => rfl) fun _ => rfl, selects_XKK 0xC (fun _ _ => rfl) fun _ _ => rfl,
    selects_draw, selects_XSS 0xE 0x9E (fun _ => rfl) fun _ => rfl, selects_XSS 0xE 0xA1 (fun _ => rfl) fun _ => rfl,
    selects_XSS 0xF 0x07 (fun _ => rfl) fun _ => rfl, selects_XSS 0xF 0x0A (fun _ => rfl) fun _ => rfl,
    selects_XSS 0xF 0x15 (fun _ => rfl) fun _ => rfl, selects_setSound, selects_XSS 0xF 0x1E (fun _ => rfl) fun _ => rfl,
    selects_fontAddr, selects_XSS 0xF 0x33 (fun _ => rfl) fun _ => rfl, selects_XSS 0xF 0x55 (fun _ => rfl) fun _ => rfl,
    selects_XSS 0xF 0x65 (fun _ => rfl) fun _ => rfl⟩

/-- Settles O5: each word is the word of its instruction, and 0x5121 has class 5 with a nonzero low nibble. -/
theorem sampleWordsDecode : Obligations.SampleWordsDecode :=
  ⟨decode_encode (i := .ret) rfl, decode_encode (i := .call 0x234) rfl, decode_encode (i := .loadImm 0 0xFF) rfl,
    decode_encode (i := .subReg 1 2) rfl, decode_encode (i := .draw 1 2 5) rfl, decode_encode (i := .storeBcd 10) rfl,
    by decide⟩

/-! ### The unrecognized words -/

/-- What a decoder answers for `w`: an instruction, or that `w` itself is not recognized. -/
def DecodesOrNames (w : Word) (d : Decoded) : Prop := (∃ i, d = .instr i) ∨ d = .unrecognized w

theorem decodeClass8_decodesOrNames (w : Word) : DecodesOrNames w (decodeClass8 w) := by
  unfold decodeClass8; split <;> simp [DecodesOrNames]

theorem decodeClassE_decodesOrNames (w : Word) : DecodesOrNames w (decodeClassE w) := by
  unfold decodeClassE; split <;> simp [DecodesOrNames]

theorem decodeClassF_decodesOrNames (w : Word) : DecodesOrNames w (decodeClassF w) := by
  unfold decodeClassF; split <;> simp [DecodesOrNames]

theorem decode_decodesOrNames (w : Word) : DecodesOrNames w (decode w) := by
  unfold decode
  split
  case h_1 =>
    split
    · exact .inl ⟨_, rfl⟩
    · split <;> simp [DecodesOrNames]
  case h_6 | h_10 => split <;> simp [DecodesOrNames]
  case h_9 => exact decodeClass8_decodesOrNames w
  case h_15 => exact decodeClassE_decodesOrNames w
  case h_16 => exact decodeClassF_decodesOrNames w
  all_goals exact .inl ⟨_, rfl⟩

theorem eq_of_decode_eq_unrecognized {w v : Word} (h : decode w = .unrecognized v) : v = w := by
  rcases decode_decodesOrNames w with ⟨i, hi⟩ | hw
  · rw [h] at hi; cases hi
  · rw [h] at hw; exact Decoded.unrecognized.inj hw

theorem decodeClass8_eq_unrecognized_iff (w : Word) :
    decodeClass8 w = .unrecognized w ↔ (fieldN w).toNat ∈ [0x8, 0x9, 0xA, 0xB, 0xC, 0xD, 0xF] := by
  unfold decodeClass8
  split
  case h_10 => simp only [imp_false, List.mem_cons, List.not_mem_nil, or_false, true_iff] at *; bv_omega
  all_goals simp [*]

theorem decodeClassE_eq_unrecognized_iff (w : Word) :
    decodeClassE w = .unrecognized w ↔ (fieldKK w).toNat ∉ [0x9E, 0xA1] := by
  unfold decodeClassE
  split
  case h_3 => simp only [imp_false, List.mem_cons, List.not_mem_nil, or_false, true_iff] at *; bv_omega
  all_goals simp [*]

theorem decodeClassF_eq_unrecognized_iff (w : Word) :
    decodeClassF w = .unrecognized w ↔
      (fieldKK w).toNat ∉ [0x07, 0x0A, 0x15, 0x18, 0x1E, 0x29, 0x33, 0x55, 0x65] := by
  unfold decodeClassF
  split
  case h_10 => simp only [imp_false, List.mem_cons, List.not_mem_nil, or_false, true_iff] at *; bv_omega
  all_goals simp [*]

/-- The listed words by class, low nibble and low byte (R51): in each class, what its branch of the decoder does not recognize. -/
theorem decode_eq_unrecognized_iff (w : Word) :
    decode w = .unrecognized w ↔
      ((fieldC w).toNat = 0x0 ∧ w ≠ 0x00E0#16 ∧ w ≠ 0x00EE#16) ∨
      ((fieldC w).toNat = 0x5 ∧ (fieldN w).toNat ≠ 0) ∨
      ((fieldC w).toNat = 0x9 ∧ (fieldN w).toNat ≠ 0) ∨
      ((fieldC w).toNat = 0x8 ∧ (fieldN w).toNat ∈ [0x8, 0x9, 0xA, 0xB, 0xC, 0xD, 0xF]) ∨
      ((fieldC w).toNat = 0xE ∧ (fieldKK w).toNat ∉ [0x9E, 0xA1]) ∨
      ((fieldC w).toNat = 0xF ∧ (fieldKK w).toNat ∉ [0x07, 0x0A, 0x15, 0x18, 0x1E, 0x29, 0x33, 0x55, 0x65]) := by
  have hN : (fieldN w).toNat = 0 ↔ fieldN w = 0x0#4 := BitVec.toNat_inj (y := 0x0#4)
  unfold decode
  split
  case h_1 hc =>
    simp only [hc]
    by_cases h1 : w = 0x00E0#16
    · simp [h1]
    · by_cases h2 : w = 0x00EE#16 <;> simp [h1, h2]
  case h_6 hc | h_10 hc => by_cases hn : fieldN w = 0x0#4 <;> simp [hc, hN, hn]
  case h_9 hc => rw [decodeClass8_eq_unrecognized_iff]; simp [hc]
  case h_15 hc => rw [decodeClassE_eq_unrecognized_iff]; simp [hc]
  case h_16 =>
    have hc : fieldC w = 0xF#4 := by simp only [imp_false] at *; bv_omega
    rw [decodeClassF_eq_unrecognized_iff]; simp [hc]
  all_goals simp [*]

/-- Settles O4: the statement's numbers are the fields that the decoder reads. -/
theorem unrecognizedWordsAreExactlyTheListed : Obligations.UnrecognizedWordsAreExactlyTheListed := by
  intro w
  have hN : w.toNat % 16 = (fieldN w).toNat := nOf_eq_fieldN w
  have hKK : w.toNat % 256 = (fieldKK w).toNat := congrArg BitVec.toNat (kkOf_eq_fieldKK w)
  rw [toNat_div_4096, hN, hKK]
  exact ⟨decode_eq_unrecognized_iff w, decode_decodesOrNames w⟩

end Sys2Proof

/-! PROOFS. What an instruction can do, said once: the state it completes with, and when it faults instead (30_encoding.md R60,
60_exceptions.md R105). -/

namespace Sys2Proof.Machine

/-! ### The instructions with a check, as the check and what follows it -/

/-- What draw leaves: the raster's pixels, its collision in VF, `pc` advanced (R95). -/
def drawn (x y : Reg) (n : Nat) (s : State) : State :=
  let dh := drawRows (originRow s y) (originCol s x) (memReadBytes s (addrI s) n) (s.DISP, false)
  advance (setV VF (flagOf dh.2) (setDISP dh.1 s))

/-- What store-bcd leaves (R88). -/
def bcdStored (x : Reg) (s : State) : State := advance (memWriteBytes (addrI s) (bcdDigits (getV s x)) s)

/-- What store-regs leaves (R89). -/
def regsStored (x : Reg) (s : State) : State := advance (memWriteBytes (addrI s) (regBlock s x) s)

/-- What load-regs leaves (R90). -/
def regsLoaded (x : Reg) (s : State) : State := advance (setVBlock x (memReadBytes s (addrI s) (x.val + 1)) s)

section

variable (x y : Reg) (s : State)

theorem exec_draw_zero : exec (.draw x y 0) s = .next (drawn x y 0 s) := rfl

theorem exec_draw_of_pos {n : Nat} (hn : 0 < n) :
    exec (.draw x y n) s = checkRange (addrI s) n (.next (drawn x y n s)) := if_pos hn

theorem exec_storeBcd : exec (.storeBcd x) s = checkRange (addrI s) 3 (.next (bcdStored x s)) := rfl

theorem exec_storeRegs : exec (.storeRegs x) s = checkRange (addrI s) (x.val + 1) (.next (regsStored x s)) := rfl

theorem exec_loadRegs : exec (.loadRegs x) s = checkRange (addrI s) (x.val + 1) (.next (regsLoaded x s)) := rfl

theorem exec_call (nnn : Addr12) :
    exec (.call nnn) s = pushReturn (s.pc + 2) s fun t => .next (setPc (zext16 nnn) t) := rfl

theorem exec_skipKeyPressed : exec (.skipKeyPressed x) s = keyPressed s (getV s x) fun p => .next (skipIf p s) := rfl

theorem exec_skipKeyNotPressed :
    exec (.skipKeyNotPressed x) s = keyPressed s (getV s x) fun p => .next (skipIf (!p) s) := rfl

end

/-! ### The state that an instruction completes with -/

/-- `t` is what instruction `i` makes of `s` when it completes, its range and stack checks included. -/
def Completes (i : Instr) (s t : State) : Prop :=
  match i with
  | .clearScreen => t = advance (setDISP (Vector.replicate 32 (Vector.replicate 64 false)) s)
  | .ret => ∃ j : Fin 16, s.SP = j.succ ∧ t = setPc s.STACK[j.val] { s with SP := j.castSucc }
  | .jump nnn => t = setPc (zext16 nnn) s
  | .call nnn => ∃ j : Fin 16, s.SP = j.castSucc ∧
      t = setPc (zext16 nnn) { s with STACK := s.STACK.set j.val (s.pc + 2), SP := j.succ }
  | .skipEqImm x kk => t = skipIf (getV s x == kk) s
  | .skipNeqImm x kk => t = skipIf (getV s x != kk) s
  | .skipEqReg x y => t = skipIf (getV s x == getV s y) s
  | .skipNeqReg x y => t = skipIf (getV s x != getV s y) s
  | .loadImm x kk => t = advance (setV x kk s)
  | .addImm x kk => t = advance (setV x (getV s x + kk) s)
  | .loadReg x y => t = advance (setV x (getV s y) s)
  | .orReg x y => t = advance (setV x (getV s x ||| getV s y) s)
  | .andReg x y => t = advance (setV x (getV s x &&& getV s y) s)
  | .xorReg x y => t = advance (setV x (getV s x ^^^ getV s y) s)
  | .addReg x y =>
      t = advance (setFlagThenResult (carryFlag (getV s x) (getV s y)) x (getV s x + getV s y) s)
  | .subReg x y =>
      t = advance (setFlagThenResult (notBorrowFlag (getV s x) (getV s y)) x (getV s x - getV s y) s)
  | .subnReg x y =>
      t = advance (setFlagThenResult (notBorrowFlag (getV s y) (getV s x)) x (getV s y - getV s x) s)
  | .shiftRight x _ => t = advance (setFlagThenResult (lowBitFlag (getV s x)) x (getV s x >>> 1) s)
  | .shiftLeft x _ => t = advance (setFlagThenResult (highBitFlag (getV s x)) x (getV s x <<< 1) s)
  | .loadAddr nnn => t = advance (setI (zext16 nnn) s)
  | .jumpOffset nnn => t = setPc (offsetTarget s nnn) s
  | .random x kk => t = advance (setV x (rnd s &&& kk) s)
  | .draw x y n => t = drawn x y n s
  | .skipKeyPressed _ | .skipKeyNotPressed _ => ∃ p, t = skipIf p s
  | .loadDelay x => t = advance (setV x s.DT s)
  | .waitKey x => t = advance (setRUN (.awaitingKey x) s)
  | .setDelay x => t = advance (setDT (getV s x) s)
  | .setSound x => t = advance (setST (getV s x) s)
  | .addAddr x => t = advance (setI (s.I + (getV s x).setWidth 16) s)
  | .fontAddr x => t = advance (setI (BitVec.ofNat 16 ((getV s x).toNat * 5)) s)
  | .storeBcd x => addrI s + 3 ≤ 4096 ∧ t = bcdStored x s
  | .storeRegs x => addrI s + (x.val + 1) ≤ 4096 ∧ t = regsStored x s
  | .loadRegs x => t = regsLoaded x s

/-- An access in range goes on, and one out of range faults (20_memory.md R33). -/
theorem checkRange_next_cases (a len : Nat) (t : State) :
    (checkRange a len (.next t) = .next t ∧ a + len ≤ 4096) ∨ ∃ e, checkRange a len (.next t) = .fault e := by
  rcases checkRange_cases a len (.next t) with ⟨h, hc⟩ | ⟨-, hc⟩
  · have hlt : a + len - 1 < 4096 := h
    exact .inl ⟨hc, by omega⟩
  · exact .inr ⟨_, hc⟩

/-- Every instruction completes as `Completes` says, or ends with a fatal error; none is refused (30_encoding.md R53). -/
theorem exec_cases (i : Instr) (s : State) :
    (∃ t, exec i s = .next t ∧ Completes i s t) ∨ ∃ e, exec i s = .fault e := by
  cases i with
  | ret =>
    rcases popReturn_cases s fun entry t => .next (setPc entry t) with ⟨j, hj, h⟩ | ⟨-, h⟩
    · exact .inl ⟨_, h, j, hj, rfl⟩
    · exact .inr ⟨_, h⟩
  | call nnn =>
    rcases pushReturn_cases (s.pc + 2) s fun t => .next (setPc (zext16 nnn) t) with ⟨j, hj, h⟩ | ⟨-, h⟩
    · exact .inl ⟨_, h, j, hj, rfl⟩
    · exact .inr ⟨_, h⟩
  | draw x y n =>
    rcases Nat.eq_zero_or_pos n with rfl | hn
    · exact .inl ⟨_, rfl, rfl⟩
    · rw [exec_draw_of_pos x y s hn]
      rcases checkRange_next_cases (addrI s) n (drawn x y n s) with ⟨h, -⟩ | ⟨e, h⟩
      · exact .inl ⟨_, h, rfl⟩
      · exact .inr ⟨e, h⟩
  | skipKeyPressed x =>
    rcases keyPressed_cases s (getV s x) fun p => .next (skipIf p s) with ⟨p, h, -⟩ | ⟨-, -, h⟩
    · exact .inl ⟨_, h, p, rfl⟩
    · exact .inr ⟨_, h⟩
  | skipKeyNotPressed x =>
    rcases keyPressed_cases s (getV s x) fun p => .next (skipIf (!p) s) with ⟨p, h, -⟩ | ⟨-, -, h⟩
    · exact .inl ⟨_, h, !p, rfl⟩
    · exact .inr ⟨_, h⟩
  | storeBcd x =>
    rcases checkRange_next_cases (addrI s) 3 _ with ⟨h, hlt⟩ | ⟨e, h⟩
    · exact .inl ⟨_, h, hlt, rfl⟩
    · exact .inr ⟨e, h⟩
  | storeRegs x =>
    rcases checkRange_next_cases (addrI s) (x.val + 1) _ with ⟨h, hlt⟩ | ⟨e, h⟩
    · exact .inl ⟨_, h, hlt, rfl⟩
    · exact .inr ⟨e, h⟩
  | loadRegs x =>
    rcases checkRange_next_cases (addrI s) (x.val + 1) _ with ⟨h, -⟩ | ⟨e, h⟩
    · exact .inl ⟨_, h, rfl⟩
    · exact .inr ⟨e, h⟩
  | _ => exact .inl ⟨_, rfl, rfl⟩

theorem completes_of_exec {i : Instr} {s t : State} (h : exec i s = .next t) : Completes i s t := by
  rcases exec_cases i s with ⟨u, hu, hc⟩ | ⟨e, he⟩
  · rw [h] at hu; cases hu; exact hc
  · rw [h] at he; cases he

/-! ### Jump targets as numbers -/

@[simp] theorem zext16_toNat (a : Addr12) : (zext16 a).toNat = a.toNat := by
  have := a.isLt
  simp [zext16]; omega

/-- jump-offset does not wrap: 12 bits and 8 bits add up below 65536 (40_control_flow.md R69). -/
theorem offsetTarget_toNat (s : State) (nnn : Addr12) : (offsetTarget s nnn).toNat = nnn.toNat + (getV s 0).toNat := by
  have h1 := nnn.isLt
  have h2 := (getV s 0).isLt
  rw [offsetTarget, BitVec.toNat_add, zext16_toNat, BitVec.toNat_setWidth]; omega

/-! ### Which state an instruction writes -/

/-- Settles O50, by what each instruction completes with. -/
theorem onlyTheNamedInstructionsWriteEachState : Obligations.OnlyTheNamedInstructionsWriteEachState := by
  intro i s t h
  have hc := completes_of_exec h
  cases i
  case ret | call => obtain ⟨j, -, rfl⟩ := hc; simp
  case draw | loadRegs => obtain rfl := hc; simp [drawn, regsLoaded]
  case skipKeyPressed | skipKeyNotPressed => obtain ⟨p, rfl⟩ := hc; simp
  case storeBcd | storeRegs => obtain ⟨-, rfl⟩ := hc; simp [bcdStored, regsStored]
  all_goals obtain rfl := hc; simp

theorem getElem_set_eq_or (V : Vector Byte 16) (x j : Reg) (v : Byte) :
    (V.set x.val v)[j.val] = V[j.val] ∨ j = x := by
  by_cases h : j = x
  · exact .inr h
  · exact .inl (Vector.getElem_set_ne _ _ fun e => h (Fin.ext e.symm))

/-- Settles O51, by what each instruction completes with. -/
theorem generalRegisterFrame : Obligations.GeneralRegisterFrame := by
  intro i s t j h
  have hc := completes_of_exec h
  cases i
  case loadImm x _ | addImm x _ | random x _ | loadReg x _ | orReg x _ | andReg x _ | xorReg x _ | loadDelay x =>
    obtain rfl := hc
    exact getElem_set_eq_or s.V x j _
  case addReg x _ | subReg x _ | shiftRight x _ | subnReg x _ | shiftLeft x _ =>
    obtain rfl := hc
    rcases getElem_set_eq_or (s.V.set 15 _) x j _ with hx | hx
    · rcases getElem_set_eq_or s.V 15 j _ with hf | hf
      · exact .inl (hx.trans hf)
      · exact .inr (.inr hf)
    · exact .inr (.inl hx)
  case draw =>
    obtain rfl := hc
    exact getElem_set_eq_or s.V 15 j _
  case loadRegs x =>
    obtain rfl := hc
    by_cases hj : j ≤ x
    · exact .inr hj
    · simp [regsLoaded, hj]
  case ret | call => obtain ⟨j, -, rfl⟩ := hc; exact .inl rfl
  case skipKeyPressed | skipKeyNotPressed => obtain ⟨p, rfl⟩ := hc; exact .inl rfl
  case storeBcd | storeRegs => obtain ⟨-, rfl⟩ := hc; simp [bcdStored, regsStored]
  all_goals obtain rfl := hc; exact .inl rfl

/-- Settles O52, by what each instruction completes with. -/
theorem programCounterOfEveryInstruction : Obligations.ProgramCounterOfEveryInstruction := by
  intro i s t h
  have hc := completes_of_exec h
  cases i
  case jump nnn => obtain rfl := hc; exact zext16_toNat nnn
  case call nnn => obtain ⟨j, -, rfl⟩ := hc; exact zext16_toNat nnn
  case jumpOffset nnn => obtain rfl := hc; exact offsetTarget_toNat s nnn
  case ret => obtain ⟨j, hj, rfl⟩ := hc; exact ⟨j, by simp [hj], rfl⟩
  case skipEqImm | skipNeqImm | skipEqReg | skipNeqReg => obtain rfl := hc; simp [getV]
  case skipKeyPressed | skipKeyNotPressed => obtain ⟨p, rfl⟩ := hc; cases p <;> simp
  case storeBcd | storeRegs => obtain ⟨-, rfl⟩ := hc; simp [bcdStored, regsStored]
  all_goals obtain rfl := hc; rfl

/-! ### Which instruction faults -/

theorem checkRange_next_eq_fault_iff {a len : Nat} {t : State} {e : Fault} :
    checkRange a len (.next t) = .fault e ↔ 4096 ≤ a + len - 1 ∧ e = .addressOutOfRange (max a 4096) := by
  rcases checkRange_cases a len (.next t) with ⟨h, hc⟩ | ⟨h, hc⟩
  · simp [hc, Nat.not_le.2 h]
  · simp [hc, h, eq_comm]

theorem keyPressed_next_eq_fault_iff (s : State) (v : Byte) (k : Bool → State) (e : Fault) :
    keyPressed s v (fun p => .next (k p)) = .fault e ↔
      16 ≤ v.toNat ∧ s.params.keyIndexPolicy = .fault ∧ e = .keyIndexOutOfRange v := by
  rcases Nat.lt_or_ge v.toNat 16 with h | h
  · simp [keyPressed_of_lt s h, Nat.not_le.2 h]
  · rw [keyPressed_of_ge s h]
    cases hp : s.params.keyIndexPolicy <;> simp [h, eq_comm]

/-- Settles O12: the instructions with a check by what the check answers, the others always complete. -/
theorem fatalErrorsOfEachInstruction : Obligations.FatalErrorsOfEachInstruction := by
  intro i s e
  cases i
  case ret =>
    rcases popReturn_cases s fun entry t => .next (setPc entry t) with ⟨j, hj, h⟩ | ⟨hj, h⟩
    · simp [exec_ret, h, hj]
    · simp [exec_ret, h, hj, eq_comm]
  case call nnn =>
    rcases pushReturn_cases (s.pc + 2) s fun t => .next (setPc (zext16 nnn) t) with ⟨j, hj, h⟩ | ⟨hj, h⟩
    · have hne : j.castSucc ≠ 16 := Fin.castSucc_ne_last j
      rw [exec_call, h]; simp [hj, hne]
    · rw [exec_call, h]; simp [hj, eq_comm]
  case draw x y n =>
    rcases Nat.eq_zero_or_pos n with rfl | hn
    · simp [exec_draw_zero]
    · rw [exec_draw_of_pos x y s hn, checkRange_next_eq_fault_iff]
      simp [hn, addrI]
  case storeBcd | storeRegs | loadRegs => exact checkRange_next_eq_fault_iff
  case skipKeyPressed x => exact keyPressed_next_eq_fault_iff s (getV s x) (fun p => skipIf p s) e
  case skipKeyNotPressed x => exact keyPressed_next_eq_fault_iff s (getV s x) (fun p => skipIf (!p) s) e
  all_goals exact ⟨nofun, nofun⟩

end Sys2Proof.Machine

/-! PROOFS. Control flow (40_control_flow.md R63 to R69). -/

namespace Sys2Proof.Machine

/-- Settles O22: the target is the operand, and writing `pc` with its own value changes nothing. -/
theorem jumpSetsPc : Obligations.JumpSetsPc := by
  refine ⟨selects_jump, fun nnn s => ⟨_, rfl, zext16_toNat nnn, rfl, fun h => ?_⟩⟩
  have hpc : zext16 nnn = s.pc := BitVec.eq_of_toNat_eq ((zext16_toNat nnn).trans h)
  rw [hpc]; rfl

/-- With `j` addresses stacked, call puts the return address in slot `j` (R64). -/
theorem exec_call_of_room {s : State} {j : Fin 16} (h : s.SP.val = j.val) (nnn : Addr12) :
    exec (.call nnn) s =
      .next { s with STACK := s.STACK.set j.val (s.pc + 2), SP := j.succ, pc := zext16 nnn } := by
  rcases pushReturn_cases (s.pc + 2) s fun t => .next (setPc (zext16 nnn) t) with ⟨k, hk, hpush⟩ | ⟨h16, -⟩
  · obtain rfl : k = j := Fin.ext (by simpa [hk] using h)
    rw [exec_call, hpush]; rfl
  · have := j.isLt
    have : s.SP.val = 16 := congrArg Fin.val h16
    omega

theorem exec_call_of_full {s : State} (h : s.SP.val = 16) (nnn : Addr12) :
    exec (.call nnn) s = .fault (.stackOverflow s.pc) :=
  (fatalErrorsOfEachInstruction (.call nnn) s _).2 ⟨Fin.ext h, rfl⟩

/-- Settles O24, by what a push can do. -/
theorem callPushesTheReturnAddress : Obligations.CallPushesTheReturnAddress := fun nnn _ =>
  ⟨fun _ h => exec_call_of_room h nnn, fun h => exec_call_of_full h nnn⟩

/-- Settles O25: the return pops the slot that the call has just filled. -/
theorem returnAfterCallResumes : Obligations.ReturnAfterCallResumes := by
  intro nnn s hsp
  refine ⟨_, _, exec_call_of_room (j := ⟨s.SP.val, hsp⟩) rfl nnn, exec_ret_of_stacked (j := ⟨s.SP.val, hsp⟩) rfl, ?_, ?_⟩
  · simp
  · intro j hj
    exact Vector.getElem_set_ne hsp _ (Ne.symm hj)

/-- Settles O26: the exact sum fits 16 bits. -/
theorem jumpOffsetAddsV0 : Obligations.JumpOffsetAddsV0 := fun nnn s => ⟨_, rfl, offsetTarget_toNat s nnn, rfl⟩

/-- A skip whose condition is a comparison of bytes, the condition read as numbers. -/
theorem skipIf_beq (a b : Byte) (s : State) :
    skipIf (a == b) s = { s with pc := if a.toNat = b.toNat then s.pc + 4 else s.pc + 2 } := by
  simp [skipIf, setPc, BitVec.toNat_inj]

theorem skipIf_bne (a b : Byte) (s : State) :
    skipIf (a != b) s = { s with pc := if a.toNat = b.toNat then s.pc + 2 else s.pc + 4 } := by
  simp [skipIf, setPc, BitVec.toNat_inj]

/-- Settles O27: each is a skip on a comparison of bytes. -/
theorem immediateSkips : Obligations.ImmediateSkips :=
  ⟨selects_skipEqImm, selects_skipNeqImm, fun x kk s =>
    ⟨congrArg _ (skipIf_beq (getV s x) kk s), congrArg _ (skipIf_bne (getV s x) kk s)⟩⟩

/-- Settles O28: each is a skip on a comparison of bytes. -/
theorem registerSkips : Obligations.RegisterSkips := fun x y s =>
  ⟨congrArg _ (skipIf_beq (getV s x) (getV s y) s), congrArg _ (skipIf_bne (getV s x) (getV s y) s)⟩

end Sys2Proof.Machine

/-! PROOFS. Register loads, arithmetic and logic (41_alu.md R72 to R83). -/

namespace Sys2Proof.Machine

/-- Settles O29: the addition of bytes is addition modulo 256. -/
theorem loadsAndAddImmediate : Obligations.LoadsAndAddImmediate := by
  refine ⟨selects_loadImm, selects_addImm, selects_loadReg, fun x y kk s => ⟨rfl, ?_, rfl⟩⟩
  have hsum : BitVec.ofNat 8 (((getV s x).toNat + kk.toNat) % 256) = getV s x + kk :=
    BitVec.eq_of_toNat_eq (by simp)
  exact congrArg (fun v => Host.Outcome.next (advance (setV x v s))) hsum.symm

/-- Settles O30: each result is the register operation, whose bits the library gives. -/
theorem bitwiseLogic : Obligations.BitwiseLogic :=
  ⟨selects_orReg, selects_andReg, selects_xorReg, fun x y s =>
    ⟨getV s x ||| getV s y, getV s x &&& getV s y, getV s x ^^^ getV s y,
      fun _ _ => ⟨BitVec.getLsbD_or, BitVec.getLsbD_and, by simp [getV]⟩, rfl, rfl, rfl⟩⟩

/-! ### The instructions that write a flag -/

/-- The result is in `V[x]`, the flag in VF unless the result went there, and no other register has changed (R71). -/
theorem writeFlagAndReg_next (f : Byte) (x : Reg) (v : Byte) (s : State) :
    ∃ t, writeFlagAndReg f x v s = .next t ∧ getV t x = v ∧ (x ≠ 15 → getV t 15 = f) ∧
      (∀ j : Reg, j ≠ x → j ≠ 15 → getV t j = getV s j) ∧ t = { s with V := t.V, pc := s.pc + 2 } := by
  have hget (j : Reg) : getV (advance (setFlagThenResult f x v s)) j = if j = x then v else if j = VF then f else getV s j :=
    getV_setFlagThenResult f x j v s
  refine ⟨_, rfl, ?_, fun hx => ?_, fun j hj hf => ?_, rfl⟩
  · rw [hget, if_pos rfl]
  · rw [hget, if_neg (Ne.symm hx), if_pos rfl]
  · rw [hget, if_neg hj, if_neg hf]

theorem carryFlag_toNat (a b : Byte) : (carryFlag a b).toNat = if a.toNat + b.toNat > 255 then 1 else 0 := by
  rw [carryFlag, flagOf_toNat]; split <;> simp [*]

theorem notBorrowFlag_toNat (a b : Byte) : (notBorrowFlag a b).toNat = if a.toNat ≥ b.toNat then 1 else 0 := by
  rw [notBorrowFlag, flagOf_toNat]; split <;> simp [*]

/-- The difference of two bytes is the integers' difference modulo 256 (R79). -/
theorem toNat_sub_eq_emod (a b : Byte) : ((a - b).toNat : Int) = (a.toNat - b.toNat : Int) % 256 := by
  have ha := a.isLt
  have hb := b.isLt
  rw [BitVec.toNat_sub]; omega

theorem lowBitFlag_toNat (a : Byte) : (lowBitFlag a).toNat = a.toNat % 2 := by
  rw [lowBitFlag, BitVec.toNat_and]; exact Nat.and_one_is_mod _

theorem highBitFlag_toNat (a : Byte) : (highBitFlag a).toNat = a.toNat / 128 := by
  rw [highBitFlag, BitVec.toNat_ushiftRight, Nat.shiftRight_eq_div_pow]

theorem toNat_ushiftRight_one (a : Byte) : (a >>> 1).toNat = a.toNat / 2 := by
  rw [BitVec.toNat_ushiftRight, Nat.shiftRight_eq_div_pow]

theorem toNat_shiftLeft_one (a : Byte) : (a <<< 1).toNat = a.toNat * 2 % 256 := by
  rw [BitVec.toNat_shiftLeft, Nat.shiftLeft_eq]

/-- Settles O31, by the shape of a flag-writing instruction and the numbers of its sum and carry. -/
theorem addRegSumAndCarry : Obligations.AddRegSumAndCarry := by
  intro x y s
  obtain ⟨t, ht, hres, hflag, hother, hframe⟩ :=
    writeFlagAndReg_next (carryFlag (getV s x) (getV s y)) x (getV s x + getV s y) s
  refine ⟨t, ht, ?_, fun hx => ?_, hother, hframe⟩
  · exact (congrArg BitVec.toNat hres).trans (BitVec.toNat_add ..)
  · exact (congrArg BitVec.toNat (hflag hx)).trans (carryFlag_toNat ..)

/-- Settles O32, by the shape of a flag-writing instruction and the numbers of both differences. -/
theorem subtractionsAndNotBorrow : Obligations.SubtractionsAndNotBorrow := by
  intro x y s
  obtain ⟨t, ht, hres, hflag, hother, hframe⟩ :=
    writeFlagAndReg_next (notBorrowFlag (getV s x) (getV s y)) x (getV s x - getV s y) s
  obtain ⟨u, hu, hres', hflag', hother', hframe'⟩ :=
    writeFlagAndReg_next (notBorrowFlag (getV s y) (getV s x)) x (getV s y - getV s x) s
  refine ⟨t, u, ht, hu, ?_, ?_, fun hx => ⟨?_, ?_⟩, fun j hj hf => ⟨hother j hj hf, hother' j hj hf⟩, hframe, hframe'⟩
  · exact (congrArg (fun v : Byte => (v.toNat : Int)) hres).trans (toNat_sub_eq_emod ..)
  · exact (congrArg (fun v : Byte => (v.toNat : Int)) hres').trans (toNat_sub_eq_emod ..)
  · exact (congrArg BitVec.toNat (hflag hx)).trans (notBorrowFlag_toNat ..)
  · exact (congrArg BitVec.toNat (hflag' hx)).trans (notBorrowFlag_toNat ..)

/-- Settles O33, by the shape of a flag-writing instruction and the numbers of both shifts. -/
theorem shiftsByOne : Obligations.ShiftsByOne := by
  intro x y s
  obtain ⟨t, ht, hres, hflag, hother, hframe⟩ := writeFlagAndReg_next (lowBitFlag (getV s x)) x (getV s x >>> 1) s
  obtain ⟨u, hu, hres', hflag', hother', hframe'⟩ :=
    writeFlagAndReg_next (highBitFlag (getV s x)) x (getV s x <<< 1) s
  refine ⟨t, u, ht, hu, ?_, ?_, fun hx => ⟨?_, ?_⟩, fun j hj hf => ⟨hother j hj hf, hother' j hj hf⟩, hframe, hframe'⟩
  · exact (congrArg BitVec.toNat hres).trans (toNat_ushiftRight_one _)
  · exact (congrArg BitVec.toNat hres').trans (toNat_shiftLeft_one _)
  · exact (congrArg BitVec.toNat (hflag hx)).trans (lowBitFlag_toNat _)
  · exact (congrArg BitVec.toNat (hflag' hx)).trans (highBitFlag_toNat _)

/-- Settles O34: RND is the head of the schedule where there is one. -/
theorem randomMasksTheRandomByte : Obligations.RandomMasksTheRandomByte :=
  ⟨fun _ _ _ => rfl, fun s ops b rest h => by simp [rnd, h]⟩

end Sys2Proof.Machine

/-! PROOFS. The address register (42_index_memory.md R85 to R87). -/

namespace Sys2Proof.Machine

/-- The product of font-addr fits 16 bits: 255 * 5 is below 65536 (R87). -/
theorem toNat_ofNat_mul_five (v : Byte) : (BitVec.ofNat 16 (v.toNat * 5)).toNat = v.toNat * 5 := by
  have := v.isLt
  rw [BitVec.toNat_ofNat]; omega

/-- Settles O35: the zero extension and the product are exact. -/
theorem loadAddrAndFontAddr : Obligations.LoadAddrAndFontAddr :=
  ⟨selects_loadAddr, selects_fontAddr, fun nnn x s =>
    ⟨_, _, rfl, rfl, zext16_toNat nnn, rfl, toNat_ofNat_mul_five (getV s x), rfl⟩⟩

/-- Settles O36: addition of words is addition modulo 65536. -/
theorem addAddrWraps : Obligations.AddAddrWraps := fun x s =>
  ⟨_, rfl, by simp [getV], rfl⟩

end Sys2Proof.Machine

/-! PROOFS. Key input and timers (44_timer_input.md R96 to R104). -/

namespace Sys2Proof.Machine

/-- The level that KeyPressed goes on with, in the three cases in which it has one (R96). -/
theorem keyPressed_of_level {s : State} {v : Byte} {p : Bool}
    (h : (v.toNat < 16 ∧ p = s.KEYS.getLsbD v.toNat) ∨
      (16 ≤ v.toNat ∧ s.params.keyIndexPolicy = .maskLowNibble ∧ p = s.KEYS.getLsbD (v.toNat % 16)) ∨
      (16 ≤ v.toNat ∧ s.params.keyIndexPolicy = .notPressed ∧ p = false)) (k : Bool → Result) :
    keyPressed s v k = k p := by
  rcases h with ⟨hv, rfl⟩ | ⟨hv, hp, rfl⟩ | ⟨hv, hp, rfl⟩
  · exact keyPressed_of_lt s hv k
  · rw [keyPressed_of_ge s hv, hp]
  · rw [keyPressed_of_ge s hv, hp]

/-- Settles O45: the level by what KeyPressed goes on with, the fault by the instructions' fault conditions. -/
theorem keySkipsReadTheLevel : Obligations.KeySkipsReadTheLevel := by
  refine fun x s => ⟨fun p hp => ⟨?_, ?_⟩, fun hv hpol => ⟨?_, ?_⟩⟩
  · rw [exec_skipKeyPressed]; exact keyPressed_of_level hp _
  · rw [exec_skipKeyNotPressed]
    refine (keyPressed_of_level hp _).trans ?_
    cases p <;> rfl
  · exact (fatalErrorsOfEachInstruction (.skipKeyPressed x) s _).2 ⟨hv, hpol, rfl⟩
  · exact (fatalErrorsOfEachInstruction (.skipKeyNotPressed x) s _).2 ⟨hv, hpol, rfl⟩

/-- Settles O46: both are single writes. -/
theorem delayTimerMoves : Obligations.DelayTimerMoves := fun _ _ => ⟨rfl, rfl⟩

end Sys2Proof.Machine

/-! PROOFS. What no instruction but its readers can see: KEY_PREV, the environment, DT and ST (10_state.md R23, R25,
30_encoding.md R59, 44_timer_input.md R104). -/

namespace Sys2Proof.Machine

open Sys2Proof.Claims

/-- The state with each hidden field put through a function of its own. -/
def mapHidden (p : Word → Word) (e : Env → Env) (d st : Byte → Byte) (s : State) : State :=
  { s with KEY_PREV := p s.KEY_PREV, env := e s.env, DT := d s.DT, ST := st s.ST }

/-- The functions leave alone what `i` itself reads or writes of the hidden fields. -/
structure HiddenFrom (i : Instr) (e : Env → Env) (d st : Byte → Byte) : Prop where
  env : ∀ x kk, i = .random x kk → e = id
  DT : ∀ x, i = .loadDelay x ∨ i = .setDelay x → d = id
  ST : ∀ x, i = .setSound x → st = id

section

variable (p : Word → Word) (e : Env → Env) (d st : Byte → Byte) (s : State)

theorem memWriteBytes_mapHidden (a : Nat) (bs : List Byte) :
    memWriteBytes a bs (mapHidden p e d st s) = mapHidden p e d st (memWriteBytes a bs s) := by
  induction bs generalizing a s with
  | nil => rfl
  | cons b rest ih => exact ih (memWrite a b s) (a + 1)

/-- An instruction that is a range check and an effect carries a change along when its effect does. -/
theorem exec_mapHidden_of_checkRange {i : Instr} {len : Nat} {f : State → State}
    (hi : ∀ u, exec i u = checkRange (addrI u) len (.next (f u)))
    (hf : f (mapHidden p e d st s) = mapHidden p e d st (f s)) :
    exec i (mapHidden p e d st s) = mapNext (mapHidden p e d st) (exec i s) := by
  have haddr : addrI (mapHidden p e d st s) = addrI s := rfl
  rw [hi, hi, hf, haddr]
  rcases checkRange_cases (addrI s) len (.next (f s)) with ⟨h, hc⟩ | ⟨h, hc⟩
  · rw [hc, checkRange_of_lt h]; rfl
  · rw [hc, checkRange_of_ge h]; rfl

theorem keyPressed_mapHidden (v : Byte) (c : Bool → Bool) :
    keyPressed (mapHidden p e d st s) v (fun b => .next (skipIf (c b) (mapHidden p e d st s))) =
      mapNext (mapHidden p e d st) (keyPressed s v fun b => .next (skipIf (c b) s)) := by
  rcases Nat.lt_or_ge v.toNat 16 with h | h
  · rw [keyPressed_of_lt _ h, keyPressed_of_lt _ h]; rfl
  · have hpol : (mapHidden p e d st s).params = s.params := rfl
    rw [keyPressed_of_ge _ h, keyPressed_of_ge _ h, hpol]
    cases s.params.keyIndexPolicy <;> rfl

/-- An instruction carries a change of the fields hidden from it along, and does nothing else with it. -/
theorem exec_mapHidden {i : Instr} (hi : HiddenFrom i e d st) :
    exec i (mapHidden p e d st s) = mapNext (mapHidden p e d st) (exec i s) := by
  cases i
  case ret =>
    rcases popReturn_cases s fun entry t => .next (setPc entry t) with ⟨j, hj, -⟩ | ⟨h0, -⟩
    · have hsp : s.SP.val = j.val + 1 := congrArg Fin.val hj
      rw [exec_ret_of_stacked hsp, exec_ret_of_stacked (s := mapHidden p e d st s) hsp]; rfl
    · have hsp : s.SP.val = 0 := congrArg Fin.val h0
      rw [exec_ret_of_empty hsp, exec_ret_of_empty (s := mapHidden p e d st s) hsp]; rfl
  case call nnn =>
    rcases pushReturn_cases (s.pc + 2) s fun t => .next (setPc (zext16 nnn) t) with ⟨j, hj, -⟩ | ⟨h16, -⟩
    · have hsp : s.SP.val = j.val := congrArg Fin.val hj
      rw [exec_call_of_room hsp, exec_call_of_room (s := mapHidden p e d st s) hsp]; rfl
    · have hsp : s.SP.val = 16 := congrArg Fin.val h16
      rw [exec_call_of_full hsp, exec_call_of_full (s := mapHidden p e d st s) hsp]; rfl
  case random x kk => obtain rfl := hi.env x kk rfl; rfl
  case loadDelay x => obtain rfl := hi.DT x (.inl rfl); rfl
  case setDelay x => obtain rfl := hi.DT x (.inr rfl); rfl
  case setSound x => obtain rfl := hi.ST x rfl; rfl
  case draw x y n =>
    rcases Nat.eq_zero_or_pos n with rfl | hn
    · rfl
    · exact exec_mapHidden_of_checkRange p e d st s (fun u => exec_draw_of_pos x y u hn) rfl
  case skipKeyPressed x => exact keyPressed_mapHidden p e d st s (getV s x) id
  case skipKeyNotPressed x => exact keyPressed_mapHidden p e d st s (getV s x) not
  case storeBcd x =>
    exact exec_mapHidden_of_checkRange p e d st s (exec_storeBcd x) (congrArg advance (memWriteBytes_mapHidden ..))
  case storeRegs x =>
    exact exec_mapHidden_of_checkRange p e d st s (exec_storeRegs x) (congrArg advance (memWriteBytes_mapHidden ..))
  case loadRegs x => exact exec_mapHidden_of_checkRange p e d st s (exec_loadRegs x) rfl
  all_goals rfl

end

/-- Settles O53: each clause changes one hidden field. -/
theorem hiddenInputsReachOnlyTheirReaders : Obligations.HiddenInputsReachOnlyTheirReaders := by
  refine fun i s => ⟨fun k => ?_, fun hi e => ?_, fun hi v => ?_⟩
  · exact exec_mapHidden (fun _ => k) id id id s ⟨fun _ _ _ => rfl, fun _ _ => rfl, fun _ _ => rfl⟩
  · exact exec_mapHidden id (fun _ => e) id id s
      ⟨fun x kk h => absurd h (hi x kk), fun _ _ => rfl, fun _ _ => rfl⟩
  · exact exec_mapHidden id id (fun _ => v) id s
      ⟨fun _ _ _ => rfl, fun x h => h.elim (absurd · (hi x).1) (absurd · (hi x).2), fun _ _ => rfl⟩

/-- Settles O47: the last clause changes ST, which is hidden from every other instruction. -/
theorem setSoundWritesTheSoundTimer : Obligations.SetSoundWritesTheSoundTimer := by
  refine ⟨selects_setSound, fun x s => ⟨_, rfl, rfl, rfl, sound_snd_eq_true_iff _⟩, fun i s v hi => ?_⟩
  exact exec_mapHidden id id id (fun _ => v) s ⟨fun _ _ _ => rfl, fun _ _ => rfl, fun x h => absurd h (hi x)⟩

end Sys2Proof.Machine

/-! PROOFS. The memory transfers (42_index_memory.md R88 to R90) and the word fetched after a store (20_memory.md R43, R45). -/

namespace Sys2Proof.Machine

open Sys2Proof.Claims

/-- The `k`-th byte of a stored sequence is read back at its place. -/
theorem memRead_memWriteBytes_at (a : Nat) (bs : List Byte) (s : State) {k : Nat} (hk : k < bs.length) :
    memRead (memWriteBytes a bs s) (a + k) = bs.getD k 0x00#8 := by
  rw [memRead_memWriteBytes, if_pos (by omega), Nat.add_sub_cancel_left]

/-- A byte outside a stored sequence stays. -/
theorem memRead_memWriteBytes_of_outside {a : Nat} {bs : List Byte} (s : State) {b : Nat}
    (hb : b < a ∨ a + bs.length ≤ b) : memRead (memWriteBytes a bs s) b = memRead s b := by
  rw [memRead_memWriteBytes, if_neg (by omega)]

/-- A store and its advance change the memory and `pc` only. -/
theorem advance_memWriteBytes_eq (a : Nat) (bs : List Byte) (s : State) :
    advance (memWriteBytes a bs s) = { s with MEM := (memWriteBytes a bs s).MEM, pc := s.pc + 2 } := by
  rw [memWriteBytes_eq]; rfl

/-! ### store-bcd -/

/-- A decimal digit of a byte fits a byte (R88). -/
theorem toNat_ofNat_digit {d : Nat} (hd : d < 256) : (BitVec.ofNat 8 d).toNat = d := by
  rw [BitVec.toNat_ofNat]; exact Nat.mod_eq_of_lt hd

theorem exec_storeBcd_of_lt {s : State} (h : s.I.toNat + 2 < 4096) (x : Reg) :
    exec (.storeBcd x) s = .next (bcdStored x s) :=
  (exec_storeBcd x s).trans (checkRange_of_lt h _)

/-- store-bcd puts the digits at I, I + 1 and I + 2 (R88). -/
theorem memRead_bcdStored (x : Reg) (s : State) {k : Nat} (hk : k < 3) :
    memRead (bcdStored x s) (s.I.toNat + k) = (bcdDigits (getV s x)).getD k 0x00#8 :=
  memRead_memWriteBytes_at (addrI s) _ s hk

/-- Settles O37: the digits are read back where they were stored. -/
theorem storeBcdStoresTheDigits : Obligations.StoreBcdStoresTheDigits := by
  intro x s
  have hv := (getV s x).isLt
  refine ⟨fun h => ⟨_, exec_storeBcd_of_lt h x, ?_, ?_, ?_, fun a ha => ?_, advance_memWriteBytes_eq ..⟩,
    fun h => (fatalErrorsOfEachInstruction (.storeBcd x) s _).2 ⟨h, rfl⟩⟩
  · exact (congrArg BitVec.toNat (memRead_bcdStored x s (k := 0) (by decide))).trans (toNat_ofNat_digit (by omega))
  · exact (congrArg BitVec.toNat (memRead_bcdStored x s (k := 1) (by decide))).trans (toNat_ofNat_digit (by omega))
  · exact (congrArg BitVec.toNat (memRead_bcdStored x s (k := 2) (by decide))).trans (toNat_ofNat_digit (by omega))
  · exact memRead_memWriteBytes_of_outside s ha

/-! ### store-regs and load-regs -/

theorem exec_storeRegs_of_lt {x : Reg} {s : State} (h : s.I.toNat + x.val < 4096) :
    exec (.storeRegs x) s = .next (regsStored x s) :=
  (exec_storeRegs x s).trans (checkRange_of_lt h _)

theorem exec_loadRegs_of_lt {x : Reg} {s : State} (h : s.I.toNat + x.val < 4096) :
    exec (.loadRegs x) s = .next (regsLoaded x s) :=
  (exec_loadRegs x s).trans (checkRange_of_lt h _)

/-- store-regs puts `V[k]` at `I + k` (R89). -/
theorem memRead_regsStored {x k : Reg} (s : State) (hk : k ≤ x) :
    memRead (regsStored x s) (s.I.toNat + k.val) = getV s k := by
  have hlen : k.val < (regBlock s x).length := by rw [regBlock_length]; exact Nat.lt_succ_of_le hk
  exact (memRead_memWriteBytes_at (addrI s) _ s hlen).trans (regBlock_getD s x k hk)

theorem memRead_regsStored_of_outside {x : Reg} (s : State) {a : Nat}
    (ha : a < s.I.toNat ∨ s.I.toNat + x.val < a) : memRead (regsStored x s) a = memRead s a := by
  refine memRead_memWriteBytes_of_outside s ?_
  rw [regBlock_length]
  exact ha

/-- load-regs reads `V[k]` from `I + k` for `k` up to x (R90). -/
theorem getV_regsLoaded {x k : Reg} (s : State) (hk : k ≤ x) :
    getV (regsLoaded x s) k = memRead s (s.I.toNat + k.val) := by
  refine (getV_setVBlock x k _ s).trans ?_
  rw [if_pos hk]
  exact memReadBytes_getD s (addrI s) _ k.val (Nat.lt_succ_of_le hk)

theorem getV_regsLoaded_of_lt {x k : Reg} (s : State) (hk : x < k) : getV (regsLoaded x s) k = getV s k :=
  (getV_setVBlock x k _ s).trans (if_neg (Fin.not_le.2 hk))

/-- Settles O38: the registers are read back where they were stored. -/
theorem storeRegsStoresTheBlock : Obligations.StoreRegsStoresTheBlock := fun x s =>
  ⟨fun h => ⟨_, exec_storeRegs_of_lt h, fun _ => memRead_regsStored s, fun _ => memRead_regsStored_of_outside s,
      advance_memWriteBytes_eq ..⟩,
    fun h => (fatalErrorsOfEachInstruction (.storeRegs x) s _).2 ⟨h, rfl⟩⟩

/-- Settles O39, register by register. -/
theorem loadRegsLoadsTheBlock : Obligations.LoadRegsLoadsTheBlock := fun x s =>
  ⟨fun h => ⟨_, exec_loadRegs_of_lt h, fun _ => getV_regsLoaded s, fun _ => getV_regsLoaded_of_lt s, rfl⟩,
    fun h => (fatalErrorsOfEachInstruction (.loadRegs x) s _).2 ⟨h, rfl⟩⟩

/-- Settles O40: the load's address and bytes are those of the store. -/
theorem storedRegistersLoadBack : Obligations.StoredRegistersLoadBack := by
  intro x s t u hst hmem hI hpar
  obtain ⟨hlt, rfl⟩ := completes_of_exec hst
  have hIs : u.I = s.I := by simpa [regsStored] using hI
  have hlt' : u.I.toNat + x.val < 4096 := by rw [hIs]; exact hlt
  refine ⟨_, exec_loadRegs_of_lt hlt', fun k hk => (getV_regsLoaded u hk).trans ?_⟩
  have hread (a : Nat) : memRead u a = memRead (regsStored x s) a := by rw [memRead, memRead, hmem, hpar]
  rw [hread, hIs]
  exact memRead_regsStored s hk

theorem wordAtPc_toNat (s : State) :
    (wordAtPc s).toNat = (memRead s s.pc.toNat).toNat * 256 + (memRead s (s.pc.toNat + 1)).toNat := by
  have h1 := (memRead s s.pc.toNat).isLt
  have h2 := (memRead s (s.pc.toNat + 1)).isLt
  rw [wordAtPc, BitVec.toNat_ofNat]; omega

/-- Settles O41: the next `pc` is I, where the store has put V0 and V1. -/
theorem storedWordIsFetchedNext : Obligations.StoredWordIsFetchedNext := by
  intro x s t hx hI hst
  obtain ⟨hlt, rfl⟩ := completes_of_exec hst
  have hpc : (regsStored x s).pc.toNat = s.I.toNat := by
    have := s.I.isLt
    simp [regsStored]; omega
  rw [wordAtPc_toNat, hpc]
  have h0 := memRead_regsStored (x := x) (k := 0) s (Fin.zero_le x)
  have h1 := memRead_regsStored (x := x) (k := 1) s hx
  exact congrArg₂ (fun a b : Byte => a.toNat * 256 + b.toNat) h0 h1

end Sys2Proof.Machine

/-! PROOFS. The canonical form of memory (20_memory.md R30, R31). -/

namespace Sys2Proof.Machine

/-- A listed byte is what its address reads as. -/
theorem Memory.read_of_mem {font : Vector Byte 80} {m : Memory} (hm : m.Pairwise fun c d => c.1 < d.1) {c : Host.Cell}
    (hc : c ∈ m) : Memory.read font m c.1 = c.2 := by
  induction m with
  | nil => cases hc
  | cons d rest ih =>
    have ⟨hd, hrest⟩ := List.pairwise_cons.1 hm
    rcases List.mem_cons.1 hc with rfl | hc
    · simp [Memory.read]
    · simp [Memory.read, Nat.ne_of_lt (hd c hc), ih hrest hc]

/-- A canonical memory lists exactly the bytes below 4096 that do not read as an unlisted address does. -/
theorem Memory.mem_iff_read {font : Vector Byte 80} {m : Memory} (hm : Memory.wf font m) (c : Host.Cell) :
    c ∈ m ↔ c.1 < Config.memSize ∧ Memory.read font m c.1 = c.2 ∧ c.2 ≠ unlistedByte font c.1 := by
  constructor
  · intro hc
    exact ⟨(hm.2 c hc).1, Memory.read_of_mem hm.1 hc, (hm.2 c hc).2⟩
  · rintro ⟨-, hread, hne⟩
    by_cases hex : ∃ d ∈ m, d.1 = c.1
    · obtain ⟨d, hd, hdc⟩ := hex
      have hd2 : d.2 = c.2 := by rw [← Memory.read_of_mem hm.1 hd, hdc, hread]
      rwa [← Prod.ext hdc hd2]
    · have habs : ∀ d ∈ m, d.1 ≠ c.1 := fun d hd hdc => hex ⟨d, hd, hdc⟩
      exact absurd (hread.symm.trans (Memory.read_of_absent font m c.1 habs)) hne

/-- Settles O56: two lists with the same cells, both by rising address, are the same list. -/
theorem canonicalMemoryIsDeterminedByItsBytes : Obligations.CanonicalMemoryIsDeterminedByItsBytes := by
  intro font m m' hm hm' hread
  have hmem (c : Host.Cell) : c ∈ m ↔ c ∈ m' := by
    rw [Memory.mem_iff_read hm, Memory.mem_iff_read hm']
    exact and_congr_right fun hc => by rw [hread c.1 hc]
  have : Std.Irrefl fun c d : Host.Cell => c.1 < d.1 := ⟨fun c => Nat.lt_irrefl c.1⟩
  have : Std.Antisymm fun c d : Host.Cell => c.1 < d.1 := ⟨fun _ _ h h' => absurd h (Nat.lt_asymm h')⟩
  exact hm.1.eq_of_mem_iff hm'.1 hmem

end Sys2Proof.Machine

/-! PROOFS. Construction and the host's operations between cycles (10_state.md R29, 60_exceptions.md R118, R119,
70_reset_and_hazards.md R126, R127). -/

namespace Sys2Proof.Machine

/-! ### Construction -/

/-- Nothing is listed after construction: every byte is the font's or 0 (R29). -/
theorem memRead_construct (p : Params) (a : Nat) : memRead (State.construct p) a = unlistedByte p.font a := rfl

/-- Settles O21: the fields by construction, the bytes by what an unlisted address reads as. -/
theorem constructedStateIsTheResetState : Obligations.ConstructedStateIsTheResetState := by
  refine ⟨rfl, fun p => ⟨rfl, rfl, rfl, rfl, rfl, rfl, rfl, rfl, rfl, fun j => ?_, fun r c => ?_, fun j => ?_, fun a ha => ?_⟩⟩
  · simp [State.construct]
  · simp [State.construct]
  · rw [memRead_construct, unlistedByte, dif_pos j.isLt]
  · rw [memRead_construct, unlistedByte, dif_neg (Nat.not_lt.2 ha)]; rfl

/-- Settles O55: the memory and the stack are empty, and `pc` is 0x200. -/
theorem constructedStateHasTheInvariant : Obligations.ConstructedStateHasTheInvariant := by
  refine fun p => ⟨⟨List.Pairwise.nil, fun c hc => ?_⟩, ?_, fun j hj => ?_⟩
  · cases hc
  · show (0x0200#16).toNat ≤ 0x10FE
    decide
  · cases hj

/-! ### The host's operations -/

section

variable {bytes : List Byte} {s : State}

theorem romLoad_of_fresh (hlen : bytes.length ≤ 3584) (hfresh : s.env.fresh = true) :
    romLoad bytes s = .next (memWriteBytes 0x200 bytes s) := by
  rw [romLoad, if_neg (Nat.not_lt.2 hlen), if_pos hfresh]

theorem romLoad_of_too_large (hlen : 3584 < bytes.length) :
    romLoad bytes s = .refused (.romTooLarge bytes.length) := if_pos hlen

theorem romLoad_of_not_fresh (hlen : bytes.length ≤ 3584) (hfresh : s.env.fresh = false) :
    romLoad bytes s = .refused .romLoadAfterCycle := by
  rw [romLoad, if_neg (Nat.not_lt.2 hlen), if_neg (by simp [hfresh])]

end

/-- rom_load copies a short enough image into a fresh block and does nothing otherwise (R127). -/
theorem romLoad_next {bytes : List Byte} {s t : State} (h : romLoad bytes s = .next t) :
    bytes.length ≤ 3584 ∧ s.env.fresh = true ∧ t = memWriteBytes 0x200 bytes s := by
  rcases Nat.lt_or_ge 3584 bytes.length with hlen | hlen
  · rw [romLoad_of_too_large hlen] at h; cases h
  · cases hfresh : s.env.fresh with
    | false => rw [romLoad_of_not_fresh hlen hfresh] at h; cases h
    | true =>
      rw [romLoad_of_fresh hlen hfresh] at h
      exact ⟨hlen, rfl, (Host.Outcome.next.inj h).symm⟩

/-- A tick operation ticks in Decoupled mode and is refused otherwise (R115, R116). -/
theorem hostTick_next {s t : State} (h : hostTick s = .next t) : s.params.timerMode = .decoupled ∧ t = tick s := by
  unfold hostTick at h
  split at h
  · exact ⟨‹_›, (Host.Outcome.next.inj h).symm⟩
  · cases h

/-- Settles O20: what is read back is what memWriteBytes has put there. -/
theorem romLoadCopiesTheImage : Obligations.RomLoadCopiesTheImage := by
  refine fun bytes s => ⟨fun hlen hfresh => ⟨_, romLoad_of_fresh hlen hfresh, fun k hk => ?_, fun a ha => ?_⟩,
    romLoad_of_too_large, romLoad_of_not_fresh⟩
  · exact memRead_memWriteBytes_at 0x200 bytes s hk
  · exact memRead_memWriteBytes_of_outside s ha

/-- Settles O19, operation by operation. -/
theorem hostOperationsTouchOnlyTheirOwnState : Obligations.HostOperationsTouchOnlyTheirOwnState := by
  intro op s t h
  cases op with
  | reset => cases h; exact ⟨rfl, rfl, rfl⟩
  | setKeys k => cases h; rfl
  | tick =>
    obtain ⟨hmode, rfl⟩ := hostTick_next h
    exact ⟨hmode, rfl⟩
  | romLoad bytes =>
    obtain ⟨hlen, hfresh, rfl⟩ := romLoad_next h
    exact ⟨hlen, hfresh, memWriteBytes_eq ..⟩

end Sys2Proof.Machine

/-! PROOFS. The cycle: its fetch check, the instruction it runs, the word it does not recognize, the key wait
(30_encoding.md R57, R58, 44_timer_input.md R97, R98). -/

namespace Sys2Proof.Machine

open Sys2Proof.Claims

/-! ### The statements' own words for the cycle's parts -/

theorem wordAtPc_eq_fetchWord (s : State) : wordAtPc s = fetchWord s := (wordOfBytes_eq_ofNat _ _).symm

theorem tickedIfCoupled_eq_coupledTick (s : State) : tickedIfCoupled s = coupledTick s := by
  unfold tickedIfCoupled coupledTick
  cases s.params.timerMode <;> rfl

theorem coupledTick_of_coupled {s : State} (h : s.params.timerMode = .coupled) : coupledTick s = tick s := by
  rw [coupledTick, h]

theorem coupledTick_of_decoupled {s : State} (h : s.params.timerMode = .decoupled) : coupledTick s = s := by
  rw [coupledTick, h]

/-! ### A Running cycle -/

section

variable {s : State} (hrun : s.RUN = .running) (hpc : s.pc.toNat + 1 < 4096)

include hrun hpc

theorem cycle_of_running : cycle s = runWord (wordAtPc s) (coupledTick s) := by
  rcases cycle_cases s with ⟨t, ht, -⟩ | ⟨-, hge, -⟩ | ⟨-, -, hc⟩
  · rw [hrun] at ht; cases ht
  · exact absurd hpc (Nat.not_lt.2 hge)
  · rw [hc, wordAtPc_eq_fetchWord]

theorem cycle_of_instr {i : Instr} (hd : decode (wordAtPc s) = .instr i) :
    cycle s = completeWith .ok (exec i (coupledTick s)) := by
  rw [cycle_of_running hrun hpc, runWord, hd]

theorem cycle_of_unrecognized (hd : decode (wordAtPc s) = .unrecognized (wordAtPc s)) :
    cycle s = .next (complete (.unrecognizedInstruction (wordAtPc s)) (advance (coupledTick s))) := by
  rw [cycle_of_running hrun hpc, runWord, hd]; rfl

end

/-- Settles O6: the step is the cycle of the state after the gap, and that cycle runs the decoded instruction. -/
theorem stepRunsTheDecodedInstruction : Obligations.StepRunsTheDecodedInstruction := by
  refine ⟨fun s hs => ?_, fun s t i hgap hrun hpc hd => ?_⟩
  · rw [gapOps, hs]; rfl
  · have hstep : step s = cycle t := by rw [step, hgap]
    rw [hstep, cycle_of_instr hrun hpc hd, tickedIfCoupled_eq_coupledTick]
    cases exec i (coupledTick t) <;> rfl

/-- Settles O7: a word that is no instruction is decoded to itself by name. -/
theorem unrecognizedWordCompletesAndIsReported : Obligations.UnrecognizedWordCompletesAndIsReported := by
  intro s hrun hpc hne
  have hd : decode (wordAtPc s) = .unrecognized (wordAtPc s) :=
    (decode_decodesOrNames (wordAtPc s)).resolve_left fun ⟨i, hi⟩ => hne i hi
  rw [cycle_of_unrecognized hrun hpc hd, tickedIfCoupled_eq_coupledTick, ← coupledTick_pc s]; rfl

/-- Settles O8: of what a cycle can do, only the failed fetch check is left. -/
theorem fetchOutOfRangeIsFatal : Obligations.FetchOutOfRangeIsFatal := by
  intro s hrun hpc
  rcases cycle_cases s with ⟨t, ht, -⟩ | ⟨-, -, hc⟩ | ⟨-, hlt, -⟩
  · rw [hrun] at ht; cases ht
  · exact hc
  · exact absurd hlt (Nat.not_lt.2 hpc)

/-! ### The key wait -/

theorem keyEdges_getLsbD_iff (s : State) (k : Reg) : (keyEdges s).getLsbD k.val = true ↔ Edge s k := by
  rw [keyEdges_getLsbD]; simp [Edge]

/-- A wait is resolved by the lowest key with an edge, or goes on where there is none (R98). -/
theorem resolveWait_cases (t : Reg) (s : State) :
    (∃ k, Edge s k ∧ (∀ j < k, ¬ Edge s j) ∧
        resolveWait t s = { s with V := s.V.set t.val (BitVec.ofNat 8 k.val), RUN := .running }) ∨
      ((∀ k, ¬ Edge s k) ∧ resolveWait t s = s) := by
  unfold resolveWait
  cases hk : lowestKey (keyEdges s) with
  | some k =>
    obtain ⟨hedge, hlow⟩ := lowestKey_eq_some.1 hk
    refine .inl ⟨k, (keyEdges_getLsbD_iff s k).1 hedge, fun j hj hedge' => ?_, rfl⟩
    rw [← keyEdges_getLsbD_iff, hlow j hj] at hedge'; cases hedge'
  | none =>
    refine .inr ⟨fun k hedge => ?_, rfl⟩
    rw [← keyEdges_getLsbD_iff, lowestKey_eq_none.1 hk k] at hedge; cases hedge

theorem cycle_of_awaitingKey {s : State} {t : Reg} (h : s.RUN = .awaitingKey t) :
    cycle s = .next (complete .ok (resolveWait t s)) := by
  rw [cycle, h]

/-- Settles O9: the key that resolves the wait is the only lowest edge. -/
theorem waitCycleResolvesOnTheLowestEdge : Obligations.WaitCycleResolvesOnTheLowestEdge := by
  intro s t hrun
  rw [cycle_of_awaitingKey hrun]
  rcases resolveWait_cases t s with ⟨k, hk, hlow, hres⟩ | ⟨hno, hres⟩
  · refine ⟨fun k' hk' hlow' => ?_, fun hno => absurd hk (hno k)⟩
    have hkk : k = k' := le_antisymm (not_lt.1 fun h => hlow k' h hk') (not_lt.1 fun h => hlow' k h hk)
    rw [hres, hkk]; rfl
  · exact ⟨fun k hk _ => absurd hk (hno k), fun _ => by rw [hres]; rfl⟩

/-- After a completed cycle no key has an edge: KEY_PREV is KEYS (R57). -/
theorem not_edge_complete (st : Status) (s : State) (k : Reg) : ¬ Edge (complete st s) k := by
  rintro ⟨hnow, hprev⟩
  rw [complete_KEY_PREV, ← complete_KEYS s st, hnow] at hprev; cases hprev

/-! ### What a completed Running cycle has run -/

/-- A completed Running cycle has run its instruction against the ticked state, or passed over its unrecognized word. -/
theorem cycle_next_of_running {s t : State} (h : cycle s = .next t) (hrun : s.RUN = .running) :
    ∃ u st, t = complete st u ∧ s.pc.toNat + 1 < 4096 ∧
      ((∃ i, decode (wordAtPc s) = .instr i ∧ exec i (coupledTick s) = .next u ∧ st = .ok) ∨
        (decode (wordAtPc s) = .unrecognized (wordAtPc s) ∧ u = advance (coupledTick s) ∧
          st = .unrecognizedInstruction (wordAtPc s))) := by
  rcases cycle_next h with ⟨k, hk, -⟩ | ⟨-, hlt, ⟨i, u, hd, he, ht⟩ | ⟨w, hd, ht⟩⟩
  · rw [hrun] at hk; cases hk
  · exact ⟨u, _, ht, hlt, .inl ⟨i, wordAtPc_eq_fetchWord s ▸ hd, he, rfl⟩⟩
  · rw [← wordAtPc_eq_fetchWord] at hd
    obtain rfl := eq_of_decode_eq_unrecognized hd
    exact ⟨_, _, ht, hlt, .inr ⟨hd, rfl, rfl⟩⟩

theorem run_eq_running_or (r : Run) : r = .running ∨ ∃ t, r = .awaitingKey t := by
  cases r with
  | running => exact .inl rfl
  | awaitingKey t => exact .inr ⟨t, rfl⟩

/-- Settles O10: a waiting cycle by its edges, a running one by who writes RUN. -/
theorem runChangesOnlyByWaitKeyAndEdge : Obligations.RunChangesOnlyByWaitKeyAndEdge := by
  intro s t h
  rcases run_eq_running_or s.RUN with hrun | ⟨x, hrun⟩
  · obtain ⟨u, st, rfl, -, ⟨i, hd, he, -⟩ | ⟨-, rfl, -⟩⟩ := cycle_next_of_running h hrun
    · obtain ⟨-, -, -, -, hu, -⟩ := onlyTheNamedInstructionsWriteEachState i _ u he
      rcases hu with hu | ⟨x, rfl⟩
      · exact .inl (by simpa using hu)
      · obtain rfl := completes_of_exec he
        exact .inr (.inl ⟨x, hrun, hd, rfl⟩)
    · exact .inl (by simp)
  · rw [cycle_of_awaitingKey hrun] at h
    cases h
    rcases resolveWait_cases x s with ⟨k, hk, -, hres⟩ | ⟨-, hres⟩
    · exact .inr (.inr ⟨x, k, hrun, hk, by rw [hres]; rfl⟩)
    · exact .inl (by rw [hres]; rfl)

/-- Settles O49: the cycle completes wait-key, and completing it samples the keys. -/
theorem waitKeyEntersTheWait : Obligations.WaitKeyEntersTheWait := by
  refine ⟨fun _ _ => rfl, fun s t x h hrun hd => ?_⟩
  obtain ⟨u, st, rfl, -, ⟨i, hd', he, -⟩ | ⟨hd', -⟩⟩ := cycle_next_of_running h hrun
  · obtain rfl : i = .waitKey x := Decoded.instr.inj (hd'.symm.trans hd)
    obtain rfl := completes_of_exec he
    exact ⟨rfl, not_edge_complete _ _⟩
  · rw [hd] at hd'; cases hd'

/-- Settles O17: the jump writes `pc` with the value it has. -/
theorem haltLoopChangesNothing : Obligations.HaltLoopChangesNothing := by
  rintro s ⟨hrun, hpc, nnn, hd, hself⟩ hmode
  have hjump : exec (.jump nnn) s = .next s := by
    show Host.Outcome.next (setPc (zext16 nnn) s) = _
    rw [hself]; rfl
  refine ⟨?_, hrun, hpc, nnn, hd, hself⟩
  rw [cycle_of_instr hrun hpc (wordAtPc_eq_fetchWord s ▸ hd), coupledTick_of_decoupled hmode, hjump]; rfl

end Sys2Proof.Machine

/-! PROOFS. Timers in the two modes (60_exceptions.md R115, R116). -/

namespace Sys2Proof.Machine

open Sys2Proof.Claims

/-- A Running cycle leaves a timer as its tick left it, unless it runs the timer's own instruction, which writes `V[x]`. -/
theorem cycle_timer_of_running {timer : State → Byte} {setter : Reg → Instr}
    (hcomplete : ∀ st u, timer (complete st u) = timer u) (hadvance : ∀ u, timer (advance u) = timer u)
    (hframe : ∀ i u v, exec i u = .next v → timer v = timer u ∨ ∃ x, i = setter x)
    (hset : ∀ x u v, exec (setter x) u = .next v → timer v = u.V[x.val])
    {s t : State} (h : cycle s = .next t) (hrun : s.RUN = .running) :
    (timer t = timer (coupledTick s) ∧ ∀ x, decode (wordAtPc s) ≠ .instr (setter x)) ∨
      ∃ x, decode (wordAtPc s) = .instr (setter x) ∧ timer t = s.V[x.val] := by
  obtain ⟨u, st, rfl, -, ⟨i, hd, he, -⟩ | ⟨hd, rfl, -⟩⟩ := cycle_next_of_running h hrun
  · rw [hcomplete]
    by_cases hi : ∃ x, i = setter x
    · obtain ⟨x, rfl⟩ := hi
      exact .inr ⟨x, hd, by simpa using hset x _ u he⟩
    · exact .inl ⟨(hframe i _ u he).resolve_right hi, fun x hx => hi ⟨x, Decoded.instr.inj (hd.symm.trans hx)⟩⟩
  · rw [hcomplete, hadvance]
    exact .inl ⟨rfl, fun x hx => by rw [hd] at hx; cases hx⟩

theorem cycle_DT_of_running {s t : State} (h : cycle s = .next t) (hrun : s.RUN = .running) :
    (t.DT = (coupledTick s).DT ∧ ∀ x, decode (wordAtPc s) ≠ .instr (.setDelay x)) ∨
      ∃ x, decode (wordAtPc s) = .instr (.setDelay x) ∧ t.DT = s.V[x.val] := by
  refine cycle_timer_of_running (fun _ _ => rfl) (fun _ => rfl) (fun i u v he => ?_) (fun x u v he => ?_) h hrun
  · obtain ⟨-, -, hDT, -⟩ := onlyTheNamedInstructionsWriteEachState i u v he
    exact hDT
  · obtain rfl := completes_of_exec he; rfl

theorem cycle_ST_of_running {s t : State} (h : cycle s = .next t) (hrun : s.RUN = .running) :
    (t.ST = (coupledTick s).ST ∧ ∀ x, decode (wordAtPc s) ≠ .instr (.setSound x)) ∨
      ∃ x, decode (wordAtPc s) = .instr (.setSound x) ∧ t.ST = s.V[x.val] := by
  refine cycle_timer_of_running (fun _ _ => rfl) (fun _ => rfl) (fun i u v he => ?_) (fun x u v he => ?_) h hrun
  · obtain ⟨-, -, -, hST, -⟩ := onlyTheNamedInstructionsWriteEachState i u v he
    exact hST
  · obtain rfl := completes_of_exec he; rfl

/-- A waiting cycle leaves both timers alone (R116). -/
theorem cycle_timers_of_waiting {s t : State} (h : cycle s = .next t) (hrun : s.RUN ≠ .running) :
    t.DT = s.DT ∧ t.ST = s.ST := by
  obtain ⟨x, hx⟩ := (run_eq_running_or s.RUN).resolve_left hrun
  rw [cycle_of_awaitingKey hx] at h
  cases h
  rcases resolveWait_cases x s with ⟨k, -, -, hres⟩ | ⟨-, hres⟩ <;> rw [hres] <;> exact ⟨rfl, rfl⟩

/-- Settles O15: each timer by what a cycle leaves in it, load-delay by the ticked state it runs against. -/
theorem coupledModeTicksOncePerRunningCycle : Obligations.CoupledModeTicksOncePerRunningCycle := by
  intro s t hmode h
  refine ⟨cycle_timers_of_waiting h, fun hrun => ⟨fun hne => ?_, fun hne => ?_, fun x hx => ?_, fun x hx => ?_, fun x hx => ?_⟩⟩
  · rcases cycle_DT_of_running h hrun with ⟨hDT, -⟩ | ⟨x, hx, -⟩
    · rw [hDT, coupledTick_of_coupled hmode, tick_DT, tickTimer_toNat]
    · exact absurd hx (hne x)
  · rcases cycle_ST_of_running h hrun with ⟨hST, -⟩ | ⟨x, hx, -⟩
    · rw [hST, coupledTick_of_coupled hmode, tick_ST, tickTimer_toNat]
    · exact absurd hx (hne x)
  · rcases cycle_DT_of_running h hrun with ⟨-, hne⟩ | ⟨y, hy, hDT⟩
    · exact absurd hx (hne x)
    · rw [hx] at hy; cases hy; exact hDT
  · rcases cycle_ST_of_running h hrun with ⟨-, hne⟩ | ⟨y, hy, hST⟩
    · exact absurd hx (hne x)
    · rw [hx] at hy; cases hy; exact hST
  · obtain ⟨u, st, rfl, -, ⟨i, hd, he, -⟩ | ⟨hd, -⟩⟩ := cycle_next_of_running h hrun
    · obtain rfl : i = .loadDelay x := Decoded.instr.inj (hd.symm.trans hx)
      obtain rfl := completes_of_exec he
      simp [coupledTick_of_coupled hmode, tickTimer_toNat]
    · rw [hd] at hx; cases hx

/-- Settles O16: the state that a cycle runs against is the state itself. -/
theorem decoupledCyclesDoNotTick : Obligations.DecoupledCyclesDoNotTick := by
  intro s t hmode h
  by_cases hrun : s.RUN = .running
  · have htick := coupledTick_of_decoupled hmode
    refine ⟨?_, ?_⟩
    · exact (cycle_DT_of_running h hrun).imp (fun hDT => by rw [hDT.1, htick]) fun ⟨x, hx, hDT⟩ => ⟨x, hrun, hx, hDT⟩
    · exact (cycle_ST_of_running h hrun).imp (fun hST => by rw [hST.1, htick]) fun ⟨x, hx, hST⟩ => ⟨x, hrun, hx, hST⟩
  · obtain ⟨hDT, hST⟩ := cycle_timers_of_waiting h hrun
    exact ⟨.inl hDT, .inl hST⟩

end Sys2Proof.Machine

/-! PROOFS. What every step keeps (60_exceptions.md R105, R108, R113, 10_state.md R20). -/

namespace Sys2Proof.Machine

open Sys2Proof.Claims

/-! ### No instruction is refused -/

theorem exec_ne_refused (i : Instr) (s : State) (r : Refusal) : exec i s ≠ .refused r := by
  intro h
  rcases exec_cases i s with ⟨t, ht, -⟩ | ⟨e, he⟩
  · rw [h] at ht; cases ht
  · rw [h] at he; cases he

theorem runWord_ne_refused (w : Word) (s : State) (r : Refusal) : runWord w s ≠ .refused r := by
  unfold runWord
  cases decode w with
  | instr i =>
    cases he : exec i s with
    | next t => simp [he, completeWith]
    | fault e => simp [he, completeWith]
    | refused r' => exact absurd he (exec_ne_refused i s r')
  | unrecognized v => simp [execUnrecognized, completeWith]

theorem cycle_ne_refused (s : State) (r : Refusal) : cycle s ≠ .refused r := by
  rcases cycle_cases s with ⟨t, -, hc⟩ | ⟨-, -, hc⟩ | ⟨-, -, hc⟩
  · simp [hc]
  · simp [hc]
  · rw [hc]; exact runWord_ne_refused _ _ r

/-- Settles O13: neither an instruction nor a cycle is refused, so only the gap can be. -/
theorem noInstructionIsRefused : Obligations.NoInstructionIsRefused := by
  refine ⟨exec_ne_refused, fun s r h => ?_⟩
  unfold step at h
  cases hgap : applyHostOps (gapOps s) s with
  | next t => rw [hgap] at h; exact absurd h (cycle_ne_refused t r)
  | fault e => rw [hgap] at h; cases h
  | refused r' => rw [hgap] at h; exact h

/-! ### A fatal error is raised again -/

/-- A cycle faults at its fetch, or by the instruction it has decoded. -/
theorem cycle_fault {s : State} {e : Fault} (h : cycle s = .fault e) :
    s.RUN = .running ∧ ((4096 ≤ s.pc.toNat + 1 ∧ e = .addressOutOfRange (max s.pc.toNat 4096)) ∨
      (s.pc.toNat + 1 < 4096 ∧ ∃ i, decode (wordAtPc s) = .instr i ∧ exec i (coupledTick s) = .fault e)) := by
  rcases cycle_cases s with ⟨t, -, hc⟩ | ⟨hrun, hge, hc⟩ | ⟨hrun, hlt, hc⟩
  · rw [h] at hc; cases hc
  · rw [h] at hc; exact ⟨hrun, .inl ⟨hge, Host.Outcome.fault.inj hc⟩⟩
  · refine ⟨hrun, .inr ⟨hlt, ?_⟩⟩
    rcases decode_decodesOrNames (wordAtPc s) with ⟨i, hd⟩ | hd
    · refine ⟨i, hd, ?_⟩
      rw [cycle_of_instr hrun hlt hd] at h
      cases he : exec i (coupledTick s) with
      | next u => rw [he] at h; cases h
      | fault e' => rw [he] at h; exact h
      | refused r => rw [he] at h; cases h
    · rw [cycle_of_unrecognized hrun hlt hd] at h; cases h

/-- Whether an instruction faults depends on no timer and no key. -/
theorem exec_fault_of_timers_and_keys {i : Instr} {s : State} {e : Fault} (h : exec i s = .fault e) (d st : Byte) (k : Word) :
    exec i { s with DT := d, ST := st, KEYS := k } = .fault e := by
  have hcond := (fatalErrorsOfEachInstruction i s e).1 h
  exact (fatalErrorsOfEachInstruction i _ e).2 (by cases i <;> exact hcond)

/-- Ticks and key changes of the host write the timers and KEYS only. -/
theorem applyHostOps_ticks_and_keys {ops : List HostOp} {s u : State}
    (hops : ∀ op ∈ ops, op = .tick ∨ ∃ k, op = .setKeys k) (h : applyHostOps ops s = .next u) :
    ∃ d st k, u = { s with DT := d, ST := st, KEYS := k } := by
  induction ops generalizing s with
  | nil => cases h; exact ⟨_, _, _, rfl⟩
  | cons op rest ih =>
    rw [applyHostOps_cons] at h
    cases ht : applyHostOp op s with
    | next t =>
      rw [ht] at h
      obtain ⟨d, st, k, rfl⟩ := ih (fun o ho => hops o (List.mem_cons_of_mem op ho)) h
      rcases hops op List.mem_cons_self with rfl | ⟨k', rfl⟩
      · obtain ⟨-, rfl⟩ := hostTick_next ht
        exact ⟨d, st, k, rfl⟩
      · cases ht
        exact ⟨d, st, k, rfl⟩
    | fault e => rw [ht] at h; cases h
    | refused r => rw [ht] at h; cases h

/-- Settles O11: the fetch and the instruction's check read nothing that the operations in between write. -/
theorem fatalErrorIsRaisedAgain : Obligations.FatalErrorIsRaisedAgain := by
  intro s u e ops h hops happ
  obtain ⟨d, st, k, rfl⟩ := applyHostOps_ticks_and_keys hops happ
  obtain ⟨hrun, ⟨hge, rfl⟩ | ⟨hlt, i, hd, he⟩⟩ := cycle_fault h
  · exact fetchOutOfRangeIsFatal { s with DT := d, ST := st, KEYS := k } hrun hge
  · have hticked : ∃ d' st', coupledTick { s with DT := d, ST := st, KEYS := k } =
        { coupledTick s with DT := d', ST := st', KEYS := k } := ⟨_, _, by rw [coupledTick_eq, coupledTick_eq s]⟩
    obtain ⟨d', st', hticked⟩ := hticked
    have hcycle := cycle_of_instr (s := { s with DT := d, ST := st, KEYS := k }) hrun hlt hd
    rw [hcycle, hticked, exec_fault_of_timers_and_keys he]; rfl

/-! ### What a completed step leaves -/

/-- No operation of the host changes a parameter. -/
theorem applyHostOp_params {op : HostOp} {s t : State} (h : applyHostOp op s = .next t) : t.params = s.params := by
  have hop := hostOperationsTouchOnlyTheirOwnState op s t h
  cases op with
  | reset => obtain ⟨ht, -⟩ := hop; rw [ht]; rfl
  | romLoad bytes => obtain ⟨-, -, ht⟩ := hop; rw [ht]
  | setKeys k => rw [hop]
  | tick => obtain ⟨-, ht⟩ := hop; rw [ht]

/-- What every single operation of the host keeps, a gap keeps. -/
theorem applyHostOps_keeps {P : State → Prop} (hP : ∀ op s t, P s → applyHostOp op s = .next t → P t) {ops : List HostOp}
    {s t : State} (hs : P s) (h : applyHostOps ops s = .next t) : P t := by
  induction ops generalizing s with
  | nil => cases h; exact hs
  | cons op rest ih =>
    rw [applyHostOps_cons] at h
    cases hop : applyHostOp op s with
    | next u => rw [hop] at h; exact ih (hP op s u hs hop) h
    | fault e => rw [hop] at h; cases h
    | refused r => rw [hop] at h; cases h

theorem applyHostOps_params {ops : List HostOp} {s t : State} (h : applyHostOps ops s = .next t) : t.params = s.params :=
  applyHostOps_keeps (P := fun u => u.params = s.params) (fun _ _ _ hu hop => (applyHostOp_params hop).trans hu) rfl h

theorem exec_params {i : Instr} {s t : State} (h : exec i s = .next t) : t.params = s.params := by
  obtain ⟨-, -, -, -, -, -, -, -, -, hparams, -⟩ := onlyTheNamedInstructionsWriteEachState i s t h
  exact hparams

theorem resolveWait_params (t : Reg) (s : State) : (resolveWait t s).params = s.params := by
  rcases resolveWait_cases t s with ⟨k, -, -, hres⟩ | ⟨-, hres⟩ <;> rw [hres]

/-- Settles O14, by what a completed cycle has run. -/
theorem completedStepSamplesKeysAndReports : Obligations.CompletedStepSamplesKeysAndReports := by
  intro s t h
  obtain ⟨g, hgap, hcycle⟩ := step_next h
  rw [← applyHostOps_params hgap]
  rcases run_eq_running_or g.RUN with hrun | ⟨x, hrun⟩
  · obtain ⟨u, st, rfl, -, ⟨i, -, he, rfl⟩ | ⟨hd, rfl, rfl⟩⟩ := cycle_next_of_running hcycle hrun
    · exact ⟨rfl, by simpa using exec_params he, .inl rfl⟩
    · exact ⟨rfl, by simp, .inr ⟨_, rfl, hd⟩⟩
  · rw [cycle_of_awaitingKey hrun] at hcycle
    cases hcycle
    exact ⟨rfl, resolveWait_params x g, .inl rfl⟩

/-! ### The invariant -/

/-- An operation of the host keeps the invariant: a reset constructs it, rom_load writes below 4096, and the others write nothing
that it speaks of. -/
theorem applyHostOp_keeps_inv (op : HostOp) (s t : State) (hs : s.Inv) (h : applyHostOp op s = .next t) : t.Inv := by
  cases op with
  | reset => cases h; exact constructedStateHasTheInvariant s.params
  | setKeys k => cases h; exact hs
  | tick => obtain ⟨-, rfl⟩ := hostTick_next h; exact hs
  | romLoad bytes =>
    obtain ⟨hlen, -, rfl⟩ := romLoad_next h
    obtain ⟨hmem, hpc, hstack⟩ := hs
    refine ⟨?_, by simpa using hpc, by simpa using hstack⟩
    rw [memWriteBytes_params]
    exact memWriteBytes_wf hmem (show 0x200 + bytes.length ≤ 4096 by omega)

/-- Only the two stores write memory, and their range check keeps them below 4096 (20_memory.md R33). -/
theorem exec_keeps_memory_wf {i : Instr} {s t : State} (hs : Memory.wf s.params.font s.MEM) (h : exec i s = .next t) :
    Memory.wf t.params.font t.MEM := by
  rw [exec_params h]
  obtain ⟨-, -, -, -, -, -, hmem, -⟩ := onlyTheNamedInstructionsWriteEachState i s t h
  rcases hmem with hmem | ⟨x, rfl | rfl⟩
  · rw [hmem]; exact hs
  · obtain ⟨hlt, rfl⟩ := completes_of_exec h
    exact memWriteBytes_wf hs hlt
  · obtain ⟨hlt, rfl⟩ := completes_of_exec h
    exact memWriteBytes_wf hs (by rw [regBlock_length]; exact hlt)

theorem skipIf_pc_bound {s : State} (hpc : s.pc.toNat + 1 < 4096) (c : Bool) : (skipIf c s).pc.toNat ≤ 0x10FE := by
  rw [skipIf_pc]
  split <;> bv_omega

/-- `pc` stays at most 0x10FE: the largest target is that of jump-offset, and a return address is at most 0x1000 (R20). -/
theorem exec_keeps_pc_bound {i : Instr} {s t : State} (hpc : s.pc.toNat + 1 < 4096)
    (hstack : ∀ j : Fin 16, j.val < s.SP.val → (s.STACK[j.val]).toNat ≤ 0x1000) (h : exec i s = .next t) :
    t.pc.toNat ≤ 0x10FE := by
  have htarget := programCounterOfEveryInstruction i s t h
  cases i
  case jump nnn | call nnn =>
    have := nnn.isLt
    have htarget : t.pc.toNat = nnn.toNat := htarget
    omega
  case jumpOffset nnn =>
    have := nnn.isLt
    have := (s.V[0]).isLt
    have htarget : t.pc.toNat = nnn.toNat + (s.V[0]).toNat := htarget
    omega
  case ret =>
    obtain ⟨j, hj, htop⟩ := htarget
    have := hstack j (by omega)
    rw [htop]; omega
  case skipEqImm | skipNeqImm | skipEqReg | skipNeqReg =>
    obtain rfl := completes_of_exec h
    exact skipIf_pc_bound hpc _
  case skipKeyPressed | skipKeyNotPressed =>
    obtain ⟨p, rfl⟩ := completes_of_exec h
    exact skipIf_pc_bound hpc p
  all_goals
    have htarget : t.pc = s.pc + 2 := htarget
    bv_omega

/-- call stacks the address after itself, at most 0x1000, and return only takes one off (D7). -/
theorem exec_keeps_stack_bound {i : Instr} {s t : State} (hpc : s.pc.toNat + 1 < 4096)
    (hstack : ∀ j : Fin 16, j.val < s.SP.val → (s.STACK[j.val]).toNat ≤ 0x1000) (h : exec i s = .next t) :
    ∀ j : Fin 16, j.val < t.SP.val → (t.STACK[j.val]).toNat ≤ 0x1000 := by
  obtain ⟨hkept, -⟩ := onlyTheNamedInstructionsWriteEachState i s t h
  intro j hj
  rcases hkept with ⟨hSP, hSTACK⟩ | rfl | ⟨nnn, rfl⟩
  · simp only [hSTACK]
    exact hstack j (hSP ▸ hj)
  · obtain ⟨k, hk, rfl⟩ := completes_of_exec h
    have hjk : j.val < k.val := hj
    exact hstack j (by rw [hk]; exact Nat.lt_succ_of_lt hjk)
  · obtain ⟨k, hk, rfl⟩ := completes_of_exec h
    have hjk : j.val < k.val + 1 := hj
    by_cases he : k.val = j.val
    · have hpush : (s.pc + 2).toNat ≤ 0x1000 := by bv_omega
      simpa [he] using hpush
    · have hlt : j.val < s.SP.val := by rw [hk]; exact Nat.lt_of_le_of_ne (Nat.le_of_lt_succ hjk) (Ne.symm he)
      show ((s.STACK.set k.val (s.pc + 2))[j.val]).toNat ≤ 0x1000
      rw [Vector.getElem_set_ne _ _ he]
      exact hstack j hlt

theorem exec_keeps_inv {i : Instr} {s t : State} (hs : s.Inv) (hpc : s.pc.toNat + 1 < 4096) (h : exec i s = .next t) : t.Inv := by
  obtain ⟨hmem, -, hstack⟩ := hs
  exact ⟨exec_keeps_memory_wf hmem h, exec_keeps_pc_bound hpc hstack h, exec_keeps_stack_bound hpc hstack h⟩

/-- The invariant speaks of memory, `pc`, the stack and the parameters only. -/
theorem inv_of_eq {s t : State} (hs : s.Inv) (hmem : t.MEM = s.MEM) (hpc : t.pc = s.pc) (hSP : t.SP = s.SP)
    (hSTACK : t.STACK = s.STACK) (hparams : t.params = s.params) : t.Inv := by
  unfold State.Inv
  simp only [hmem, hpc, hSP, hSTACK, hparams]
  exact hs

theorem coupledTick_keeps_inv {s : State} (hs : s.Inv) : (coupledTick s).Inv :=
  inv_of_eq hs (by simp) (by simp) (by simp) (by simp) (by simp)

theorem cycle_keeps_inv {s t : State} (hs : s.Inv) (h : cycle s = .next t) : t.Inv := by
  have hticked := coupledTick_keeps_inv hs
  rcases run_eq_running_or s.RUN with hrun | ⟨x, hrun⟩
  · obtain ⟨u, st, rfl, hlt, ⟨i, -, he, -⟩ | ⟨-, rfl, -⟩⟩ := cycle_next_of_running h hrun
    · show u.Inv
      exact exec_keeps_inv hticked (by simpa using hlt) he
    · obtain ⟨hmem, -, hstack⟩ := hticked
      refine ⟨hmem, ?_, hstack⟩
      have : (s.pc + 2).toNat ≤ 0x10FE := by bv_omega
      simpa using this
  · rw [cycle_of_awaitingKey hrun] at h
    cases h
    rcases resolveWait_cases x s with ⟨k, -, -, hres⟩ | ⟨-, hres⟩ <;> rw [hres] <;> exact hs

/-- Settles O54: the gap keeps the invariant, and so does the cycle after it. -/
theorem stepKeepsTheInvariant : Obligations.StepKeepsTheInvariant := by
  intro s t hs h
  obtain ⟨g, hgap, hcycle⟩ := step_next h
  exact cycle_keeps_inv (applyHostOps_keeps applyHostOp_keeps_inv hs hgap) hcycle

end Sys2Proof.Machine

/-! PROOFS. The display (43_display.md R91 to R95). -/

namespace Sys2Proof.Machine

open Sys2Proof.Claims

/-- Settles O42: the display written is the clear one. -/
theorem clearScreenClearsEveryPixel : Obligations.ClearScreenClearsEveryPixel :=
  ⟨selects_clearScreen, fun _ => ⟨_, rfl, fun r c => by simp, rfl⟩⟩

/-! ### The sprite of a draw as a list of display pixels -/

/-- The display pixels under the 1 bits of the sprite that `draw x y n` draws in `s`. -/
def sprite (x y : Reg) (n : Nat) (s : State) : List (Fin 32 × Fin 64) :=
  spritePixels (originRow s y) (originCol s x) (memReadBytes s (addrI s) n)

theorem mem_sprite_iff {x y : Reg} {n : Nat} {s : State} {R : Fin 32} {C : Fin 64} :
    (R, C) ∈ sprite x y n s ↔ UnderSprite s x y n R C := by
  simp only [sprite, mem_spritePixels, memReadBytes_length, UnderSprite, spriteBit]
  refine exists_congr fun r => exists_congr fun c => and_congr_right fun hr => ?_
  rw [memReadBytes_getD s (addrI s) n r hr]
  rfl

/-- A sprite of at most 15 rows covers no display pixel twice (R93). -/
theorem sprite_nodup (x y : Reg) {n : Nat} (hn : n < 16) (s : State) : (sprite x y n s).Nodup :=
  spritePixels_nodup (by rw [memReadBytes_length]; omega)

theorem drawn_eq (x y : Reg) (n : Nat) (s : State) :
    drawn x y n s = advance (setV VF (flagOf (hitAll (sprite x y n s) (s.DISP, false)).2)
      (setDISP (hitAll (sprite x y n s) (s.DISP, false)).1 s)) := by
  rw [drawn, drawRows_eq_hitAll]; rfl

section

variable {x y : Reg} {n : Nat} (hn : n < 16) (s : State)

include hn

/-- Draw inverts the pixels of its sprite (R93). -/
theorem pixel_drawn (R : Fin 32) (C : Fin 64) :
    pixel (drawn x y n s).DISP R C = (pixel s.DISP R C ^^ decide ((R, C) ∈ sprite x y n s)) := by
  rw [drawn_eq]
  exact pixel_hitAll (sprite_nodup x y hn s) (s.DISP, false) R C

omit hn in
theorem getV_drawn_VF : getV (drawn x y n s) 15 = flagOf (hitAll (sprite x y n s) (s.DISP, false)).2 := by
  rw [drawn_eq]; simp [getV]

/-- VF is 1 exactly when a pixel of the sprite was 1 (R93). -/
theorem getV_drawn_VF_eq_one_iff :
    getV (drawn x y n s) 15 = 1 ↔ ∃ R C, UnderSprite s x y n R C ∧ pixel s.DISP R C = true := by
  rw [getV_drawn_VF]
  refine (flagOf_eq_one _).trans ((hit_hitAll (sprite_nodup x y hn s) _).trans ?_)
  simp [Prod.exists, mem_sprite_iff]

end

theorem getV_drawn_VF_cases (x y : Reg) (n : Nat) (s : State) :
    getV (drawn x y n s) 15 = 0 ∨ getV (drawn x y n s) 15 = 1 := by
  have hflag (b : Bool) : flagOf b = 0x00#8 ∨ flagOf b = 0x01#8 := by cases b <;> simp
  rw [getV_drawn_VF]; exact hflag _

theorem getV_drawn_of_ne {j : Reg} (hj : j ≠ 15) (x y : Reg) (n : Nat) (s : State) : getV (drawn x y n s) j = getV s j := by
  rw [drawn_eq]
  exact (getV_setV 15 j _ _).trans (if_neg hj)

theorem exec_draw_of_lt {n : Nat} {s : State} (h : n = 0 ∨ s.I.toNat + n - 1 < 4096) (x y : Reg) :
    exec (.draw x y n) s = .next (drawn x y n s) := by
  rcases Nat.eq_zero_or_pos n with rfl | hn
  · exact exec_draw_zero x y s
  · exact (exec_draw_of_pos x y s hn).trans (checkRange_of_lt (h.resolve_left (Nat.ne_of_gt hn)) _)

/-- Settles O43: the pixels under the sprite are the listed ones, each hit once. -/
theorem drawInvertsThePixelsUnderTheSprite : Obligations.DrawInvertsThePixelsUnderTheSprite := by
  intro x y n s hwf
  have hn : n < 16 := of_decide_eq_true hwf
  refine ⟨fun h => ⟨_, exec_draw_of_lt h x y, fun R C hu => ?_, fun R C hu => ?_, getV_drawn_VF_eq_one_iff hn s,
    getV_drawn_VF_cases x y n s, fun j hj => getV_drawn_of_ne hj x y n s, rfl⟩,
    fun hpos hge => (fatalErrorsOfEachInstruction (.draw x y n) s _).2 ⟨hpos, hge, rfl⟩⟩
  · exact (pixel_drawn hn s R C).trans (by rw [decide_eq_true (mem_sprite_iff.2 hu), Bool.xor_true]; rfl)
  · exact (pixel_drawn hn s R C).trans (by rw [decide_eq_false (mem_sprite_iff.not.2 hu), Bool.xor_false]; rfl)

/-! ### Drawing twice -/

theorem display_ext {d d' : Display} (h : ∀ R C, pixel d R C = pixel d' R C) : d = d' :=
  Vector.ext fun r hr => Vector.ext fun c hc => h ⟨r, hr⟩ ⟨c, hc⟩

/-- Each 1 bit of a sprite lies over a display pixel, since the raster wraps (R91). -/
theorem exists_underSprite_iff {s : State} {x y : Reg} {n : Nat} :
    (∃ R C, UnderSprite s x y n R C) ↔
      ∃ r c, r < n ∧ c < 8 ∧ (memRead s (s.I.toNat + r)).getLsbD (7 - c) = true := by
  constructor
  · rintro ⟨R, C, r, c, hr, hc, hb, -, -⟩
    exact ⟨r, c, hr, hc, hb⟩
  · rintro ⟨r, c, hr, hc, hb⟩
    exact ⟨⟨_, Nat.mod_lt _ (by decide)⟩, ⟨_, Nat.mod_lt _ (by decide)⟩, r, c, hr, hc, hb, rfl, rfl⟩

/-- What lies under a sprite depends on I, the two origin registers and memory. -/
theorem underSprite_congr {s u : State} {x y : Reg} {n : Nat} (hI : u.I = s.I) (hread : ∀ a, memRead u a = memRead s a)
    (hx : u.V[x.val] = s.V[x.val]) (hy : u.V[y.val] = s.V[y.val]) (R : Fin 32) (C : Fin 64) :
    UnderSprite u x y n R C ↔ UnderSprite s x y n R C := by
  unfold UnderSprite
  simp only [hI, hread, hx, hy]

/-- Settles O44: the second draw inverts the same pixels, and each of them is the inverse of what it was at first. -/
theorem drawingTwiceRestoresTheDisplay : Obligations.DrawingTwiceRestoresTheDisplay := by
  intro x y n s t u hwf hst hDISP hMEM hparams hI hx hy
  have hn : n < 16 := of_decide_eq_true hwf
  obtain rfl := completes_of_exec hst
  have hIs : u.I = s.I := hI
  have hread (a : Nat) : memRead u a = memRead s a := by
    rw [memRead, hMEM, hparams]; rfl
  have hunder := underSprite_congr (n := n) hIs hread hx hy
  have hpixel (R : Fin 32) (C : Fin 64) :
      pixel u.DISP R C = (pixel s.DISP R C ^^ decide ((R, C) ∈ sprite x y n s)) := by
    rw [hDISP, pixel_drawn hn]
  have hVF : getV (drawn x y n u) 15 = 1 ↔ ∃ R C, UnderSprite s x y n R C ∧ pixel s.DISP R C = false := by
    rw [getV_drawn_VF_eq_one_iff hn]
    refine exists_congr fun R => exists_congr fun C => ?_
    rw [hunder]
    refine and_congr_right fun hu => ?_
    rw [hpixel, decide_eq_true (mem_sprite_iff.2 hu)]
    simp
  rcases exec_cases (.draw x y n) u with ⟨v, hv, rfl⟩ | ⟨e, he⟩
  · refine ⟨_, hv, display_ext fun R C => ?_, hVF, fun hclear => hVF.trans ?_⟩
    · have hsame : (R, C) ∈ sprite x y n u ↔ (R, C) ∈ sprite x y n s := by
        rw [mem_sprite_iff, mem_sprite_iff, hunder]
      rw [pixel_drawn hn, hpixel]
      simp [hsame]
    · rw [← exists_underSprite_iff]
      exact exists_congr fun R => exists_congr fun C => and_iff_left_of_imp (hclear R C)
  · have hfault := (fatalErrorsOfEachInstruction (.draw x y n) u e).1 he
    rw [hIs] at hfault
    rw [(fatalErrorsOfEachInstruction (.draw x y n) s e).2 hfault] at hst
    cases hst

end Sys2Proof.Machine
